-- ==== Sys2Proof/Word.lean ====
section
/-! DEFINITION. The widths the registers, operands and memory bytes of the core have. -/

namespace Sys2Proof

/-- A byte of the external memory (20_memory R33). -/
abbrev Byte := BitVec 8

/-- A 32-bit pattern: an operand, a register, a sample, a memory word (10_state R16-R22, 30_encoding R48). -/
abbrev Word := BitVec 32

/-- A 16-bit pattern: a window table entry or a window value in Q(1.14) (40_fixed_point R59). -/
abbrev Half := BitVec 16

end Sys2Proof
end

