-- ==== Sys2Proof/Config.lean ====
section
/-! DEFINITION. The configuration record of 00_scope R6, its derived constants (R9) and the reference configuration REF. -/

namespace Sys2Proof

/-- The parameters of 00_scope R6, fixed for a run (10_state R25). The model takes them as data, so that every
statement about a state is a statement about every configuration (log entry 1). -/
structure Config where
  /-- CAP_IN_LOG2 -/
  capInLog2 : Nat
  /-- CAP_FB_LOG2 -/
  capFbLog2 : Nat
  /-- TAPS -/
  taps : Nat
  /-- BANK_LOG2 -/
  bankLog2 : Nat
  /-- COEF_FRAC -/
  coefFrac : Nat
  /-- COEF: one row per selector, one signed 32-bit coefficient per tap (R8, 40_fixed_point R61) -/
  coef : List (List Word)
  /-- MIN_GRAIN_SIZE -/
  minGrainSize : Nat
  /-- MAX_GRAIN_SIZE -/
  maxGrainSize : Nat
  /-- SMOOTH_K -/
  smoothK : Nat
  /-- SMOOTH_SHIFT -/
  smoothShift : Nat
  /-- RESET_TARGET -/
  resetTarget : Nat
  /-- WIN[0..63], Q(1.14) (10_state R23, 46_window_lut R99) -/
  win : Vector Half 64
  /-- GRAIN_COUNT, fixed by the source: an accepted configuration has 2 (R6) -/
  grainCount : Nat
  deriving DecidableEq, Repr

/-- ONE = 2^28, 1.0 in Q(3.28) (R9). -/
def one : Nat := 2 ^ 28

/-- THRESH = ONE - ONE / GRAIN_COUNT, which is 2^27 for a GRAIN_COUNT of 2 (R9). -/
def Config.thresh (c : Config) : Nat := one - one / c.grainCount

/-- CAP_IN = 2^CAP_IN_LOG2 (R9). -/
def Config.capIn (c : Config) : Nat := 2 ^ c.capInLog2

/-- CAP_FB = 2^CAP_FB_LOG2 (R9). -/
def Config.capFb (c : Config) : Nat := 2 ^ c.capFbLog2

/-- BANK = 2^BANK_LOG2 (R9). -/
def Config.bank (c : Config) : Nat := 2 ^ c.bankLog2

/-- The default window table, the normative list of 46_window_lut R99. -/
def hannTable : Vector Half 64 := #v[
  0, 39, 157, 353, 624, 967, 1381, 1859,
  2399, 2995, 3641, 4330, 5057, 5814, 6594, 7389,
  8192, 8995, 9790, 10570, 11327, 12054, 12743, 13389,
  13985, 14525, 15003, 15417, 15760, 16031, 16227, 16345,
  16384, 16345, 16227, 16031, 15760, 15417, 15003, 14525,
  13985, 13389, 12743, 12054, 11327, 10570, 9790, 8995,
  8192, 7389, 6594, 5814, 5057, 4330, 3641, 2995,
  2399, 1859, 1381, 967, 624, 353, 157, 39]

/-- The linear-interpolation test bank LIN of 95_test_vectors section 1: R6 gives COEF no default but "test fixture
only", so REF carries this fixture (DESIGN CHOICE, log entry 2; no statement rests on it). -/
def linBank (taps bankLog2 coefFrac : Nat) : List (List Word) :=
  (List.range (2 ^ bankLog2)).map fun sel =>
    let fNum := sel * 2 ^ coefFrac / 2 ^ bankLog2
    (List.range taps).map fun j =>
      if j = taps / 2 then BitVec.ofNat 32 (2 ^ coefFrac - fNum)
      else if j = taps / 2 + 1 then BitVec.ofNat 32 fNum
      else 0

/-- The reference configuration REF: the defaults of R6. -/
def Config.ref : Config where
  capInLog2 := 15
  capFbLog2 := 15
  taps := 8
  bankLog2 := 4
  coefFrac := 24
  coef := linBank 8 4 24
  minGrainSize := 64
  maxGrainSize := 16384
  smoothK := 65379
  smoothShift := 16
  resetTarget := 64
  win := hannTable
  grainCount := 2

end Sys2Proof
end

