-- ==== Sys2Proof/Syntax.lean ====
section
/-! DEFINITION. The command set RBM-CMD v1 (30_encoding R49), the beat (R48), and the assembler's lines (R55, R56). -/

namespace Sys2Proof

/-- One constructor per row of the opcode table (30_encoding R49). A command carries the operands R50 says it uses; a
field it ignores has no place here, since no model may tell such beats apart (R50). -/
inductive Instr where
  /-- op 0, 41_control R68 -/
  | nop
  /-- op 1, 41_control R69: `a` the candidate BASE_IN, `b` the candidate BASE_FB -/
  | init (a b : Word)
  /-- op 2, 41_control R70 -/
  | reset
  /-- op 3, 42_ring_buffer R75: `a` the raw input sample, `b` the feedback-mixed sample -/
  | push (a b : Word)
  /-- op 4, 43_delay_smoother R80: `a` the requested delay length -/
  | update (a : Word)
  /-- op 5, 44_fractional_delay R87 -/
  | dout
  /-- op 6, 45_grain_engine R95 -/
  | rout
  /-- op 7, the reserved opcode, 41_control R71 -/
  | reserved7
  deriving DecidableEq, Repr

/-- One beat of the command port (30_encoding R48). -/
structure Beat where
  op : BitVec 3
  a : Word
  b : Word
  deriving DecidableEq, Repr

/-- An operand as written in the assembler (30_encoding R55). -/
inductive AsmOperand where
  /-- a decimal integer, perhaps with a leading minus sign -/
  | dec (v : Int)
  /-- a hexadecimal integer 0x... -/
  | hex (v : Nat)
  /-- q(x) with x = num / 10^places: a Q(7.24) sample -/
  | q (num : Int) (places : Nat)
  deriving DecidableEq, Repr

/-- One line of the assembler: the commands of 30_encoding R55 and the pseudo-instructions of R56. -/
inductive AsmLine where
  | nop
  | init (baseIn baseFb : AsmOperand)
  | reset
  | push (inp fb : AsmOperand)
  | update (len : AsmOperand)
  | dout
  | rout
  | op7
  | tick (inp fb len : AsmOperand)
  | tickio (inp fb len : AsmOperand)
  | hold
  deriving DecidableEq, Repr

end Sys2Proof
end

