-- ==== Sys2Proof/WellFormed.lean ====
section
/-! DEFINITION. Which configurations are accepted (00_scope R6, R7), and which instructions and assembler operands are
well-formed. -/

namespace Sys2Proof

/-- R6: CAP_IN_LOG2 and CAP_FB_LOG2 lie in 1..30. -/
abbrev Config.CapsOk (c : Config) : Prop :=
  1 ≤ c.capInLog2 ∧ c.capInLog2 ≤ 30 ∧ 1 ≤ c.capFbLog2 ∧ c.capFbLog2 ≤ 30

/-- R6: TAPS is even and lies in 2..64. -/
abbrev Config.TapsOk (c : Config) : Prop := c.taps % 2 = 0 ∧ 2 ≤ c.taps ∧ c.taps ≤ 64

/-- R6: BANK_LOG2 lies in 0..8, COEF_FRAC in 0..62, and COEF has a value for each selector and tap. -/
abbrev Config.BankOk (c : Config) : Prop :=
  c.bankLog2 ≤ 8 ∧ c.coefFrac ≤ 62 ∧ c.coef.length = c.bank ∧ ∀ row ∈ c.coef, row.length = c.taps

/-- R6: 2 <= MIN_GRAIN_SIZE <= MAX_GRAIN_SIZE <= 2^23 - 1. -/
abbrev Config.SizesOk (c : Config) : Prop :=
  2 ≤ c.minGrainSize ∧ c.minGrainSize ≤ c.maxGrainSize ∧ c.maxGrainSize ≤ 2 ^ 23 - 1

/-- R6: SMOOTH_SHIFT lies in 1..32 and SMOOTH_K < 2^SMOOTH_SHIFT. -/
abbrev Config.SmoothOk (c : Config) : Prop :=
  1 ≤ c.smoothShift ∧ c.smoothShift ≤ 32 ∧ c.smoothK < 2 ^ c.smoothShift

/-- R6: MIN_GRAIN_SIZE <= RESET_TARGET <= MAX_GRAIN_SIZE. -/
abbrev Config.ResetTargetOk (c : Config) : Prop :=
  c.minGrainSize ≤ c.resetTarget ∧ c.resetTarget ≤ c.maxGrainSize

/-- R6: GRAIN_COUNT is fixed at 2. -/
abbrev Config.GrainCountOk (c : Config) : Prop := c.grainCount = 2

/-- R7: the oldest FIR tap age fits. -/
abbrev Config.OldestTapFits (c : Config) : Prop := c.maxGrainSize + c.taps / 2 ≤ c.capFb

/-- R7: the newest FIR tap age is not negative. -/
abbrev Config.NewestTapFits (c : Config) : Prop := c.taps / 2 ≤ c.minGrainSize

/-- R7: the oldest grain read age fits. -/
abbrev Config.OldestGrainReadFits (c : Config) : Prop := c.maxGrainSize + 1 ≤ c.capIn

/-- The configurations 00_scope R6 and R7 accept. The model has no machine for another (R7, 60_exceptions R104). -/
abbrev Config.Accepted (c : Config) : Prop :=
  c.CapsOk ∧ c.TapsOk ∧ c.BankOk ∧ c.SizesOk ∧ c.SmoothOk ∧ c.ResetTargetOk ∧ c.GrainCountOk ∧
    c.OldestTapFits ∧ c.NewestTapFits ∧ c.OldestGrainReadFits

/-- The check as a Bool. -/
def Config.accepted (c : Config) : Bool := decide c.Accepted

/-- Every instruction is well-formed: no operand value is reserved (30_encoding R53), and the operand fields have the
width of their type. -/
def Instr.wellFormed : Instr → Bool
  | .nop | .init _ _ | .reset | .push _ _ | .update _ | .dout | .rout | .reserved7 => true

/-- 30_encoding R55: `x * 2^24` of `q(x)` must be an integer. A decimal or hexadecimal operand must have a 32-bit
pattern (DESIGN CHOICE, log entry 14: R55 does not say what a wider one means). -/
def AsmOperand.wellFormed : AsmOperand → Bool
  | .dec v => decide (-2 ^ 31 ≤ v) && decide (v < 2 ^ 32)
  | .hex v => decide (v < 2 ^ 32)
  | .q num places => decide ((num * 2 ^ 24) % ((10 ^ places : Nat) : Int) = 0)

end Sys2Proof
end

