-- ==== Sys2Proof/Decode.lean ====
section
/-! DEFINITION. The decoder, total on all 2^67 beats (30_encoding R48-R50, R53, R54), and the encoder written from the
same table. -/

namespace Sys2Proof

/-- Why a number is no beat. -/
inductive DecodeError where
  /-- The number has a bit above bit 66: a beat is 67 bits wide (30_encoding R48). Raised by `decodeBits`; safe. -/
  | widerThanABeat
  deriving DecidableEq, Repr

/-- The opcode map of 30_encoding R49: `op` alone selects the command, and a command takes the operand fields R50 gives
it. Op 7 is the reserved opcode (R53). -/
def decode (beat : Beat) : Instr :=
  if beat.op = 0 then .nop
  else if beat.op = 1 then .init beat.a beat.b
  else if beat.op = 2 then .reset
  else if beat.op = 3 then .push beat.a beat.b
  else if beat.op = 4 then .update beat.a
  else if beat.op = 5 then .dout
  else if beat.op = 6 then .rout
  else .reserved7

/-- The 67-bit value `{op, b, a}` of 30_encoding R48. -/
def Beat.pack (beat : Beat) : BitVec 67 := (beat.op ++ beat.b) ++ beat.a

/-- The fields of a 67-bit beat: `beat[66:64] = op`, `beat[63:32] = b`, `beat[31:0] = a` (30_encoding R48). -/
def Beat.unpack (w : BitVec 67) : Beat where
  op := w.extractLsb' 64 3
  a := w.extractLsb' 0 32
  b := w.extractLsb' 32 32

/-- Decoding a number as a beat; one wider than a beat is rejected by name. -/
def decodeBits (w : Nat) : Except DecodeError Instr :=
  if w < 2 ^ 67 then .ok (decode (.unpack (BitVec.ofNat 67 w))) else .error .widerThanABeat

/-- The opcode of a command (30_encoding R49). -/
def Instr.opcode : Instr → BitVec 3
  | .nop => 0
  | .init _ _ => 1
  | .reset => 2
  | .push _ _ => 3
  | .update _ => 4
  | .dout => 5
  | .rout => 6
  | .reserved7 => 7

/-- The beat of a command whose ignored fields hold `x` (in place of `a`) and `y` (in place of `b`): the operand layout
of 30_encoding R50. -/
def encodeWith (x y : Word) : Instr → Beat
  | .nop => ⟨0, x, y⟩
  | .init a b => ⟨1, a, b⟩
  | .reset => ⟨2, x, y⟩
  | .push a b => ⟨3, a, b⟩
  | .update a => ⟨4, a, y⟩
  | .dout => ⟨5, x, y⟩
  | .rout => ⟨6, x, y⟩
  | .reserved7 => ⟨7, x, y⟩

/-- The beat a host drives for a command: ignored fields are 0 (30_encoding R50). -/
def encode (i : Instr) : Beat := encodeWith 0 0 i

/-- The 67-bit value of a command's beat. -/
def encodeBits (i : Instr) : Nat := (encode i).pack.toNat

/-- The beat whose op field is the opcode table's bits 2..0 of `w`. The table gives the operand fields no bits, so they are
0, and no bit above `op` is a field of the row: the table's match and mask apply to `cmd_op` only (log entry 13). -/
def Beat.ofTableWord (_nbits w : Nat) : Beat := ⟨BitVec.ofNat 3 w, 0, 0⟩

/-- What the decoder reads from a word numbered as the opcode table numbers it. -/
def decodeTableWord (nbits w : Nat) : Option Instr := some (decode (Beat.ofTableWord nbits w))

end Sys2Proof
end

