-- ==== Sys2Proof/Machine/State.lean ====
section
/-! DEFINITION. The state of the core (10_state R16-R25, R31), the host's moves, and the power-on reset values
(70_reset_and_hazards R119). -/

namespace Sys2Proof.Machine

/-- The two rings (42_ring_buffer section 1): the raw-input ring IN and the feedback-mix ring FB. -/
inductive Ring where
  | inp
  | fb
  deriving DecidableEq, Repr

/-- A grain slot index, the value of the 1-bit register ORIGIN (10_state R21, R22). -/
inductive Slot where
  | zero
  | one
  deriving DecidableEq, Repr

/-- One grain slot (10_state R22). -/
structure Grain where
  /-- PHASE, signed Q(3.28) -/
  phase : Word
  /-- STEP, unsigned, in Q(3.28) LSBs -/
  step : Word
  /-- COUNTER, unsigned -/
  counter : Word
  /-- READ_START, an index of the raw-input ring (log entry 9) -/
  readStart : Nat
  /-- LENGTH, unsigned, in samples -/
  length : Word
  deriving DecidableEq, Repr

/-- The response of one beat (10_state R27, 30_encoding R52). -/
structure Response where
  /-- rsp_err -/
  err : Bool
  /-- rsp_data -/
  data : Word
  deriving DecidableEq, Repr

/-- A completed 32-bit access on the memory port (10_state R29). -/
inductive BusAccess where
  | read (addr : Nat) (v : Word)
  | write (addr : Nat) (v : Word)
  deriving DecidableEq, Repr

/-- A read on the coefficient port (10_state R28): `coef_sel` and `coef_tap`. -/
structure CoefRead where
  sel : BitVec 8
  tap : BitVec 6
  deriving DecidableEq, Repr

/-- What the host may do next (70_reset_and_hazards R119, R126). -/
inductive HostMove where
  /-- Offers a beat and holds it until it is accepted (30_encoding R51; liberties 7, 10, 11). -/
  | beat (b : Beat)
  /-- Lets any number of cycles pass (liberty 9). -/
  | wait
  /-- Drives `rst_n` low, then high (10_state R26, R119). -/
  | powerOnReset
  /-- Offers a beat whose command is accepted and does not complete: `acks` of its memory accesses, reads and writes, are
  acknowledged and `coefs` of its coefficient reads made; where the next access is a write, the word it targets takes the value
  `torn`, or keeps its own where `torn` is none (R119, I15, 60_exceptions R117; log entries 7 and 10). -/
  | beginBeat (b : Beat) (acks coefs : Nat) (torn : Option Word)
  /-- Writes one byte of the memory (liberty 12, duties 1 and 2). -/
  | hostWrite (addr : Word) (v : Byte)
  /-- Reads one byte of the memory (liberty 8, duty 2). -/
  | hostRead (addr : Word)
  deriving DecidableEq, Repr

/-- The external memory: (address, byte) pairs in the canonical form `Memory.Canonical` (20_memory R33). -/
abbrev Memory := List Host.Cell

/-- All that the spec gives the machine: the registers of 10_state R31, the memory, the parameters (R25) and what passes
over the ports. -/
structure State where
  /-- The configuration record, WIN and COEF among it: fixed for the run (R23, R25; log entry 1). -/
  cfg : Config
  /-- STATUS (R16) -/
  status : BitVec 8
  /-- BASE_IN (R17) -/
  baseIn : Word
  /-- BASE_FB (R17) -/
  baseFb : Word
  /-- WP_IN (R18; log entry 9) -/
  wpIn : Nat
  /-- WP_FB (R18; log entry 9) -/
  wpFb : Nat
  /-- TARGET (R19) -/
  target : Word
  /-- EFF, unsigned Q(23.8) (R20) -/
  eff : Word
  /-- ORIGIN (R21) -/
  origin : Slot
  /-- GRAIN[0] (R22) -/
  grain0 : Grain
  /-- GRAIN[1] (R22) -/
  grain1 : Grain
  /-- BUSY: a command was accepted and has not responded (R24; log entry 7) -/
  busy : Bool
  /-- The external memory's bytes (R25, R33) -/
  mem : Memory
  /-- The host's coming moves, the next one first (R130; log entry 5) -/
  host : List HostMove
  /-- The responses given so far, oldest first (R130; log entry 11) -/
  responses : List Response
  /-- The memory port's completed accesses, oldest first (R39; log entry 10) -/
  bus : List BusAccess
  /-- The coefficient port's reads, oldest first (R28; log entry 10) -/
  coefReads : List CoefRead
  deriving DecidableEq, Repr

/-- Why the machine has no move. None is raised by a command: a command's own faults are responses (60_exceptions R104). -/
inductive Fault where
  /-- A memory access whose address is no multiple of 4. 20_memory R37: it never occurs and no rule defines one. Raised by
  `memRead` and `memWrite`, in states no run reaches; safe. -/
  | misalignedAccess
  /-- A memory access that runs past address 2^32 - 1, where there is no memory (R33, R37). Raised by `memRead` and
  `memWrite`, in states no run reaches; safe. -/
  | accessPastTop
  /-- A beat offered while a command that never completes is in progress: it is never accepted (R104 'hang', I16). Raised
  by `step`; safe. -/
  | hang
  /-- The host breaks duty 1 or 2 of 70_reset_and_hazards R126: the model has no move for it (R43, I16). Raised by `step`;
  safe. -/
  | hostDutyBroken
  deriving DecidableEq, Repr

/-- What the model has no machine or no meaning for. -/
inductive Refusal where
  /-- An instruction without a meaning; raised by `exec` only; safe. -/
  | notModelled (mnemonic : String)
  /-- The configuration fails 00_scope R6 or R7: the model has no machine for it (R7, R104, I3). Raised by `step`; safe. -/
  | configNotAccepted
  deriving DecidableEq, Repr

/-- A grain slot's power-on and RESET value (10_state R22). -/
def Grain.cleared : Grain := ⟨0, 0, 0, 0, 0⟩

/-- The core right after power-on reset with configuration `cfg`, memory contents `mem` (R25: a launch input) and the
host's moves `host` (70_reset_and_hazards R119). -/
def State.launch (cfg : Config) (mem : Memory) (host : List HostMove) : State where
  cfg := cfg
  status := 0
  baseIn := 0
  baseFb := 0
  wpIn := 0
  wpFb := 0
  target := BitVec.ofNat 32 cfg.resetTarget
  eff := BitVec.ofNat 32 (cfg.resetTarget * 2 ^ 8)
  origin := .zero
  grain0 := .cleared
  grain1 := .cleared
  busy := false
  mem := mem
  host := host
  responses := []
  bus := []
  coefReads := []

/-- The machine right after reset: REF, memory with nothing listed (log entry 3), no move of the host yet (log entry 5). -/
def State.reset : State := State.launch Config.ref [] []

end Sys2Proof.Machine
end

