-- ==== Sys2Proof/Machine/Flags.lean ====
section
/-! DEFINITION. The STATUS register's bits (10_state R16) and the cause codes (60_exceptions R105). There is no other flag
(10_state R15). -/

namespace Sys2Proof.Machine

/-- The cause codes of 60_exceptions R105. -/
inductive Cause where
  /-- ERR_NOT_INIT, code 1 -/
  | notInit
  /-- ERR_REINIT, code 2 -/
  | reinit
  /-- ERR_BAD_BASE, code 3 -/
  | badBase
  /-- ERR_ILLEGAL_OP, code 4 -/
  | illegalOp
  /-- ERR_DIV0, code 5 -/
  | div0
  deriving DecidableEq, Repr

/-- The code of a cause, which is also the number of its STATUS bit (R105, 10_state R16). -/
def Cause.code : Cause → Nat
  | .notInit => 1
  | .reinit => 2
  | .badBase => 3
  | .illegalOp => 4
  | .div0 => 5

/-- STATUS.INIT_DONE (10_state R16). -/
def State.initDone (s : State) : Bool := s.status.getLsbD 0

/-- `STATUS[n] <- 1`: the bit is OR-ed in (60_exceptions R106). -/
def setStatusBit (status : BitVec 8) (n : Nat) : BitVec 8 := status ||| BitVec.ofNat 8 (2 ^ n)

/-- The error bits `STATUS[5:1]` (10_state R16). -/
def State.errorBits (s : State) : BitVec 5 := s.status.extractLsb' 1 5

/-- The `status[7:0]` output (10_state R30). -/
def State.statusOut (s : State) : BitVec 8 := s.status

/-- The `cmd_ready` output while `rst_n = 1` (10_state R24). -/
def State.cmdReady (s : State) : Bool := !s.busy

end Sys2Proof.Machine
end

