-- ==== Sys2Proof/Machine/Memory.lean ====
section
/-! DEFINITION. The external memory: reading and writing bytes and words (20_memory R33-R37), in one canonical form. -/

namespace Sys2Proof.Machine

/-- What an unlisted address reads as. The spec assumes no contents (10_state R25): every contents is some list, and this
value only fixes which contents the empty list stands for (DESIGN CHOICE, log entry 3). -/
def unlistedByte : Byte := 0

/-- How many bytes the address space has (20_memory R33). -/
def addressSpace : Nat := 2 ^ 32

/-- The canonical form: addresses strictly rising, inside the address space, and no entry equal to what an unlisted
address reads as. -/
abbrev Memory.Canonical (m : Memory) : Prop :=
  m.Pairwise (fun x y => x.1 < y.1) ∧ ∀ cell ∈ m, cell.1 < addressSpace ∧ cell.2 ≠ unlistedByte

/-- The form as a Bool. -/
def Memory.wf (m : Memory) : Bool := decide (Memory.Canonical m)

/-- The byte `M[addr]`. -/
def Memory.byte : Memory → Nat → Byte
  | [], _ => unlistedByte
  | (k, v) :: rest, addr => if k = addr then v else Memory.byte rest addr

/-- `cell` before `rest`, left out where it holds what an unlisted address reads as. -/
def Memory.listed (addr : Nat) (v : Byte) (rest : Memory) : Memory :=
  if v = unlistedByte then rest else (addr, v) :: rest

/-- `M[addr] <- v`, keeping the canonical form. -/
def Memory.setByte : Memory → Nat → Byte → Memory
  | [], addr, v => Memory.listed addr v []
  | (k, w) :: rest, addr, v =>
    if addr < k then Memory.listed addr v ((k, w) :: rest)
    else if addr = k then Memory.listed addr v rest
    else (k, w) :: Memory.setByte rest addr v

/-- The word `{M[addr+3], M[addr+2], M[addr+1], M[addr]}` (R34, R36). -/
def Memory.word (m : Memory) (addr : Nat) : Word :=
  ((m.byte (addr + 3) ++ m.byte (addr + 2)) ++ m.byte (addr + 1)) ++ m.byte addr

/-- The four byte writes of `MemWrite(addr, 4, v)` (R35, R36). -/
def Memory.setWord (m : Memory) (addr : Nat) (v : Word) : Memory :=
  (((m.setByte addr (v.extractLsb' 0 8)).setByte (addr + 1) (v.extractLsb' 8 8)).setByte
    (addr + 2) (v.extractLsb' 16 8)).setByte (addr + 3) (v.extractLsb' 24 8)

/-- Whether a word access at `addr` is one the core can make: aligned and inside the address space (R37). -/
def accessError (addr : Nat) : Option Fault :=
  if addr % 4 ≠ 0 then some .misalignedAccess
  else if addressSpace ≤ addr + 3 then some .accessPastTop
  else none

/-- `MemRead(addr, 4)`: one read on the memory port (R34). -/
def memRead (addr : Nat) (s : State) : Except Fault (Word × State) :=
  match accessError addr with
  | some f => .error f
  | none =>
    let v := s.mem.word addr
    .ok (v, { s with bus := s.bus ++ [.read addr v] })

/-- `MemWrite(addr, 4, v)`: one write on the memory port (R35). -/
def memWrite (addr : Nat) (v : Word) (s : State) : Except Fault State :=
  match accessError addr with
  | some f => .error f
  | none => .ok { s with mem := s.mem.setWord addr v, bus := s.bus ++ [.write addr v] }

end Sys2Proof.Machine
end

