-- ==== Sys2Proof/Machine/FixedPoint.lean ====
section
/-! DEFINITION. Fixed-point arithmetic: the primitives of 00_scope R10 and 40_fixed_point R62-R65. -/

namespace Sys2Proof.Machine

/-- `asr(v, n) = floor(v / 2^n)` (R10, R62). -/
def asr (v : Int) (n : Nat) : Int := v / ((2 ^ n : Nat) : Int)

/-- `mulsh(x, y, n) = asr(x * y, n)` with the exact product (R63). -/
def mulsh (x y : Int) (n : Nat) : Int := asr (x * y) n

/-- `trunc_32`: the 32-bit pattern of an integer (R10, R64). -/
def trunc32 (v : Int) : Word := BitVec.ofInt 32 v

/-- `trunc_16`, for a window value (R10, R59). -/
def trunc16 (v : Int) : Half := BitVec.ofInt 16 v

/-- The 64-bit pattern of an integer, for the FIR accumulator (R10, R64). -/
def trunc64 (v : Int) : BitVec 64 := BitVec.ofInt 64 v

/-- `ceil_div(n, d) = (n + d - 1) div d` (R65). -/
def ceilDiv (n d : Nat) : Nat := (n + d - 1) / d

end Sys2Proof.Machine
end

