-- ==== Sys2Proof/Machine/Operands.lean ====
section
/-! DEFINITION. How the operand fields are read (30_encoding R50) and what the registers stand for (40_fixed_point
R57-R60). -/

namespace Sys2Proof.Machine

/-- INIT's operands: an unsigned 32-bit byte address (R50). -/
def baseOperand (x : Word) : Nat := x.toNat

/-- UPDATE's operand: `req = sext_32(a)`, whole samples (R50, 43_delay_smoother R78). -/
def requestOperand (a : Word) : Int := a.toInt

/-- A PUSH operand: the 32-bit pattern of a Q(7.24) sample, stored as it is (R50, R57). -/
def sampleOperand (x : Word) : Word := x

/-- The signed value of a Q(7.24) sample in LSBs (R57). -/
def sampleValue (x : Word) : Int := x.toInt

/-- `target_q8 = TARGET << 8` (R60). -/
def targetQ8 (target : Word) : Int := (target.toNat : Int) * 2 ^ 8

/-- `int_part = EFF >> 8`, whole samples (R60). -/
def effIntPart (eff : Word) : Nat := eff.toNat / 2 ^ 8

/-- `frac_part = EFF[7:0]`, 1/256 samples (R60). -/
def effFracPart (eff : Word) : Nat := eff.toNat % 2 ^ 8

/-- `grain_len = EFF >> 9` (R60). -/
def grainLen (eff : Word) : Nat := eff.toNat / 2 ^ 9

end Sys2Proof.Machine
end

