-- ==== Sys2Proof/Machine/Ops.lean ====
section
/-! DEFINITION. The operations the meanings share: responses, taking a fault, the rings, the grain slots, power-on reset. -/

namespace Sys2Proof.Machine

/-- The three outcomes of a step of this machine. -/
abbrev Result := Host.Outcome State Fault Refusal

/-- The outcome of a computation that may stop with a fault. -/
def Result.ofExcept : Except Fault State → Result
  | .ok s => .next s
  | .error f => .fault f

/-- The command completes with `rsp_err`, `rsp_data` (30_encoding R52). -/
def respond (err : Bool) (data : Word) (s : State) : State :=
  { s with responses := s.responses ++ [⟨err, data⟩] }

/-- Taking a fault: `raise Fault(c)` of 60_exceptions R106. The STATUS bit is OR-ed in, the response carries the cause
code, and nothing else changes: nothing is saved and control goes nowhere. There is no return (R110). -/
def raiseFault (c : Cause) (s : State) : State :=
  respond true (BitVec.ofNat 32 c.code) { s with status := setStatusBit s.status c.code }

/-- The dispatch's check of every command but NOP, INIT and op 7 (41_control R67, 60_exceptions R108). -/
def whenInitDone (s : State) (run : Result) : Result :=
  if s.initDone then run else .next (raiseFault .notInit s)

/-! Rings (42_ring_buffer R72-R74) -/

/-- CAP_r (R72). -/
def ringCap (c : Config) : Ring → Nat
  | .inp => c.capIn
  | .fb => c.capFb

/-- BASE_r (R72). -/
def State.base (s : State) : Ring → Word
  | .inp => s.baseIn
  | .fb => s.baseFb

/-- The write pointer of a ring (10_state R18). -/
def State.wp (s : State) : Ring → Nat
  | .inp => s.wpIn
  | .fb => s.wpFb

/-- `idx_r(k) = k & MASK_r = k mod CAP_r`, for any integer `k` (R72). -/
def ringIdx (c : Config) (r : Ring) (k : Int) : Nat := (k % (ringCap c r : Int)).toNat

/-- `RingAddr(r, k) = BASE_r + 4 * idx_r(k)` (R72). -/
def ringAddr (s : State) (r : Ring) (k : Int) : Nat := (s.base r).toNat + 4 * ringIdx s.cfg r k

/-- `RingRead(r, k)` (R73): the sample's pattern; `sampleValue` reads it as signed. -/
def ringRead (r : Ring) (k : Int) (s : State) : Except Fault (Word × State) := memRead (ringAddr s r k) s

/-- `RingWrite(r, k, v)` (R74). -/
def ringWrite (r : Ring) (k : Int) (v : Word) (s : State) : Except Fault State := memWrite (ringAddr s r k) v s

/-- The sample a ring holds at index `k` in the memory as it is: what `ringRead` answers. -/
def State.ringWord (s : State) (r : Ring) (k : Int) : Word := s.mem.word (ringAddr s r k)

/-! Grain slots (10_state R21, R22) -/

/-- The value of ORIGIN as a number. -/
def Slot.index : Slot → Nat
  | .zero => 0
  | .one => 1

/-- `1 - ORIGIN` (45_grain_engine R93). -/
def Slot.other : Slot → Slot
  | .zero => .one
  | .one => .zero

/-- `GRAIN[g]`. -/
def State.grain (s : State) : Slot → Grain
  | .zero => s.grain0
  | .one => s.grain1

/-- `GRAIN[g] <- x`. -/
def State.setGrain (s : State) : Slot → Grain → State
  | .zero, x => { s with grain0 := x }
  | .one, x => { s with grain1 := x }

/-- A slot is Active or Spawned, that is not Inactive, when `PHASE > 0` (45_grain_engine R90). -/
def Grain.active (g : Grain) : Bool := decide (0 < g.phase.toInt)

/-! The coefficient port (10_state R28) -/

/-- `COEF(sel, tap)`: a pure function of the port's two outputs (R28, R127). An accepted configuration has a value for
each selector and tap the core drives (00_scope R6). -/
def coefPort (c : Config) (sel : BitVec 8) (tap : BitVec 6) : Word := (c.coef.getD sel.toNat []).getD tap.toNat 0

/-- One read of the coefficient port. -/
def coefRead (sel : BitVec 8) (tap : BitVec 6) (s : State) : Word × State :=
  (coefPort s.cfg sel tap, { s with coefReads := s.coefReads ++ [⟨sel, tap⟩] })

/-! Power-on reset -/

/-- Power-on reset (70_reset_and_hazards R119): every register takes its power-on value, a command in progress is abandoned
without a response, the memory keeps what it holds and makes no access. The parameters, the host's coming moves and what has
passed over the ports stay. -/
def powerOnReset (s : State) : State :=
  { State.launch s.cfg s.mem s.host with responses := s.responses, bus := s.bus, coefReads := s.coefReads }

end Sys2Proof.Machine
end

