-- ==== Sys2Proof/Machine/Control.lean ====
section
/-! DEFINITION. The control commands NOP, INIT, RESET and the reserved opcode 7 (41_control). -/

namespace Sys2Proof.Machine

/-- NOP (R68). -/
def execNop (s : State) : Result := .next (respond false 0 s)

/-- `size_r = 4 * CAP_r`, the bytes of a region (20_memory R33, R69). -/
def regionSize (c : Config) (r : Ring) : Nat := 4 * ringCap c r

/-- INIT's operand checks (R69): both bases are multiples of 4, both regions end at or below 2^32, and the regions are
disjoint. -/
def basesOk (c : Config) (a b : Nat) : Bool :=
  decide (a % 4 = 0 ∧ b % 4 = 0) &&
  decide (a + regionSize c .inp ≤ addressSpace ∧ b + regionSize c .fb ≤ addressSpace) &&
  decide (a + regionSize c .inp ≤ b ∨ b + regionSize c .fb ≤ a)

/-- INIT (R69). Cause 2 is checked before cause 3. -/
def execInit (a b : Word) (s : State) : Result :=
  if s.initDone then .next (raiseFault .reinit s)
  else if basesOk s.cfg (baseOperand a) (baseOperand b) then
    .next (respond false 0
      { s with baseIn := a, baseFb := b, wpIn := 0, wpFb := 0, status := setStatusBit s.status 0 })
  else .next (raiseFault .badBase s)

/-- RESET's assignments to the engine state (R70). -/
def resetEngine (s : State) : State :=
  { s with
    origin := .zero
    grain0 := .cleared
    grain1 := .cleared
    target := BitVec.ofNat 32 s.cfg.resetTarget
    eff := BitVec.ofNat 32 (s.cfg.resetTarget * 2 ^ 8) }

/-- RESET (R70). -/
def execReset (s : State) : Result := whenInitDone s (.next (respond false 0 (resetEngine s)))

/-- The reserved opcode 7 (R71, 30_encoding R53): always cause 4. -/
def execReserved7 (s : State) : Result := .next (raiseFault .illegalOp s)

end Sys2Proof.Machine
end

