-- ==== Sys2Proof/Machine/Engine.lean ====
section
/-! DEFINITION. UPDATE_DELAY_LENGTH: target update and smoothing (43_delay_smoother R78-R80), the grain engine's advance,
trigger and spawn (45_grain_engine R91-R93), ERR_DIV0 (60_exceptions R107). -/

namespace Sys2Proof.Machine

/-- `target_update(a)` (R78): a request in range becomes the target; another is ignored. -/
def newTarget (c : Config) (target a : Word) : Word :=
  if (c.minGrainSize : Int) ≤ requestOperand a ∧ requestOperand a ≤ (c.maxGrainSize : Int) then
    trunc32 (requestOperand a)
  else target

/-- `scaled = (diff * SMOOTH_K) >> SMOOTH_SHIFT` (R79). -/
def scaledDiff (c : Config) (diff : Int) : Int := mulsh diff c.smoothK c.smoothShift

/-- `smooth_step()` (R79): EFF after one step toward `dst = TARGET << 8`. -/
def newEff (c : Config) (target eff : Word) : Word :=
  let dst := targetQ8 target
  let src : Int := eff.toNat
  if src < dst then trunc32 (dst - scaledDiff c (dst - src))
  else if dst < src then trunc32 (dst + scaledDiff c (src - dst))
  else eff

/-- The first two steps of UPDATE (R80). -/
def smooth (a : Word) (s : State) : State :=
  let target := newTarget s.cfg s.target a
  { s with target := target, eff := newEff s.cfg target s.eff }

/-- One slot's advance (R92): the phase wraps at 32 bits (40_fixed_point R64), and so does the counter. -/
def Grain.advance (g : Grain) : Grain := { g with phase := g.phase - g.step, counter := g.counter + 1 }

/-- `grain_advance()` (R92): both slots, Inactive or not. -/
def grainAdvance (s : State) : State := { s with grain0 := s.grain0.advance, grain1 := s.grain1.advance }

/-- The step of a grain of length `len` (R91). -/
def grainStep (len : Nat) : Nat := if 1 ≤ len then ceilDiv one len else one

/-- `GRAIN[ORIGIN].PHASE <= THRESH`, a signed compare (R93). -/
def mustSpawn (s : State) : Bool := decide ((s.grain s.origin).phase.toInt ≤ (s.cfg.thresh : Int))

/-- The spawned slot's contents (R93), but for the step, which every slot gets. -/
def spawnedGrain (s : State) : Grain where
  phase := BitVec.ofNat 32 one
  step := BitVec.ofNat 32 (grainStep (grainLen s.eff))
  counter := 0
  readStart := s.wpIn
  length := BitVec.ofNat 32 (grainLen s.eff)

/-- The spawn of R93: the other slot becomes the origin and starts, and the new step is copied onto every slot. -/
def spawn (s : State) : State :=
  let kept := { s.grain s.origin with step := BitVec.ofNat 32 (grainStep (grainLen s.eff)) }
  ({ (s.setGrain s.origin kept) with origin := s.origin.other }).setGrain s.origin.other (spawnedGrain s)

/-- `grain_trigger()` (R93): at most one spawn. -/
def grainTrigger (s : State) : State := if mustSpawn s then spawn s else s

/-- Whether the trigger at `s` spawns a grain of length 0 (R91, 60_exceptions R105 cause 5). -/
def spawnsEmpty (s : State) : Bool := mustSpawn s && decide (grainLen s.eff = 0)

/-- UPDATE's state after its four steps, before the response (R80). -/
def updateEngine (a : Word) (s : State) : State := grainTrigger (grainAdvance (smooth a s))

/-- UPDATE_DELAY_LENGTH (R80). ERR_DIV0 sets its bit and responds cause 5 after all the steps (60_exceptions R107). -/
def execUpdate (a : Word) (s : State) : Result :=
  whenInitDone s <|
    if spawnsEmpty (grainAdvance (smooth a s)) then .next (raiseFault .div0 (updateEngine a s))
    else .next (respond false 0 (updateEngine a s))

end Sys2Proof.Machine
end

