-- ==== Sys2Proof/Machine/Window.lean ====
section
/-! DEFINITION. The window function (46_window_lut R100). -/

namespace Sys2Proof.Machine

/-- The Q(1.14) value of table entry `idx` (R99). -/
def winValue (c : Config) (idx : BitVec 6) : Int := (c.win.get idx.toFin).toInt

/-- `window(t)` for `0 <= t < ONE`, given by its 28 fraction bits (R100): table index from the high 6 bits, linear
interpolation with the low 22. -/
def window (c : Config) (t : BitVec 28) : Half :=
  let idx := t.extractLsb' 22 6
  let fr := t.extractLsb' 0 22
  let nxt := idx + 1
  let d := winValue c nxt - winValue c idx
  trunc16 (winValue c idx + asr (d * fr.toNat) 22)

/-- `w16 = w14 << 2`, Q(15.16) (40_fixed_point R59). -/
def windowQ16 (w14 : Half) : Int := w14.toInt * 2 ^ 2

end Sys2Proof.Machine
end

