-- ==== Sys2Proof/Machine/Output.lean ====
section
/-! DEFINITION. The output commands: DELAY_OUTPUT (44_fractional_delay R84-R87) and REVERSE_OUTPUT (45_grain_engine R94,
R95). -/

namespace Sys2Proof.Machine

/-- `sel = EFF[7:0] >> (8 - BANK_LOG2)` (R84), as driven on `coef_sel` (10_state R28). -/
def firSelector (c : Config) (eff : Word) : BitVec 8 := BitVec.ofNat 8 (effFracPart eff / 2 ^ (8 - c.bankLog2))

/-- `base = WP_FB - TAPS/2 + (EFF >> 8)`, an integer before masking (R85). -/
def firBase (s : State) : Int := (s.wpFb : Int) - (s.cfg.taps / 2 : Nat) + effIntPart s.eff

/-- The taps of `js` in order, from accumulator `acc`: the accumulator wraps at 64 bits after each add (R86). -/
def firTaps (base : Int) (sel : BitVec 8) : List Nat → BitVec 64 → State → Except Fault (BitVec 64 × State)
  | [], acc, s => .ok (acc, s)
  | j :: js, acc, s => do
    let (x, s) ← ringRead .fb (base + j) s
    let (coef, s) := coefRead sel (BitVec.ofNat 6 j) s
    firTaps base sel js (trunc64 (acc.toInt + sampleValue x * coef.toInt)) s

/-- `resample(base, sel)` (R86). -/
def resample (base : Int) (sel : BitVec 8) (s : State) : Except Fault (Word × State) := do
  let (acc, s) ← firTaps base sel (List.range s.cfg.taps) 0 s
  return (trunc32 (asr acc.toInt s.cfg.coefFrac), s)

/-- The effect of DOUT after the dispatch (R87). -/
def delayOutput (s : State) : Except Fault State := do
  let (y, s) ← resample (firBase s) (firSelector s.cfg s.eff) s
  return respond false y s

/-- DELAY_OUTPUT (R87). -/
def execDout (s : State) : Result := whenInitDone s (Result.ofExcept (delayOutput s))

/-- `t = ONE - PHASE`, its bits [27:0] (R94, 40_fixed_point R66). -/
def windowArg (g : Grain) : BitVec 28 := BitVec.ofInt 28 ((one : Int) - g.phase.toInt)

/-- The ring index a slot reads: `READ_START + COUNTER` (R94). -/
def grainReadIndex (g : Grain) : Int := (g.readStart : Int) + (g.counter.toNat : Int)

/-- `c_g = s32(asr(smp * w16, 16))` for the sample `smp` (R94). -/
def contribution (c : Config) (g : Grain) (smp : Word) : Word :=
  trunc32 (mulsh (sampleValue smp) (windowQ16 (window c (windowArg g))) 16)

/-- One slot's turn in ROUT's loop (R95): an Inactive slot makes no memory read. -/
def addGrain (g : Grain) (sum : Word) (s : State) : Except Fault (Word × State) :=
  if g.active then do
    let (smp, s) ← ringRead .inp (grainReadIndex g) s
    return (sum + contribution s.cfg g smp, s)
  else .ok (sum, s)

/-- The effect of ROUT after the dispatch: slot 0, then slot 1 (R95). -/
def reverseOutput (s : State) : Except Fault State := do
  let (sum, s) ← addGrain s.grain0 0 s
  let (sum, s) ← addGrain s.grain1 sum s
  return respond false sum s

/-- REVERSE_OUTPUT (R95). -/
def execRout (s : State) : Result := whenInitDone s (Result.ofExcept (reverseOutput s))

end Sys2Proof.Machine
end

