-- ==== Sys2Proof/Machine/Push.lean ====
section
/-! DEFINITION. PUSH_INPUT (42_ring_buffer R75). -/

namespace Sys2Proof.Machine

/-- The write pointer after a push: `(WP_r - 1) & MASK_r` (R75, 40_fixed_point R66). -/
def pushedWp (s : State) (r : Ring) : Nat := ringIdx s.cfg r ((s.wp r : Int) - 1)

/-- `WP_IN <- (WP_IN - 1) & MASK_IN ; RingWrite(IN, WP_IN, a)` (R75). -/
def pushIn (a : Word) (s : State) : Except Fault State :=
  let s := { s with wpIn := pushedWp s .inp }
  ringWrite .inp s.wpIn (sampleOperand a) s

/-- `WP_FB <- (WP_FB - 1) & MASK_FB ; RingWrite(FB, WP_FB, b)` (R75). -/
def pushFb (b : Word) (s : State) : Except Fault State :=
  let s := { s with wpFb := pushedWp s .fb }
  ringWrite .fb s.wpFb (sampleOperand b) s

/-- The effect of PUSH after the dispatch: the IN write, then the FB write (20_memory R39). -/
def pushBoth (a b : Word) (s : State) : Except Fault State := do
  let s ← pushIn a s
  let s ← pushFb b s
  return respond false 0 s

/-- PUSH_INPUT (R75). -/
def execPush (a b : Word) (s : State) : Result := whenInitDone s (Result.ofExcept (pushBoth a b s))

end Sys2Proof.Machine
end

