-- ==== Sys2Proof/Machine/Dispatch.lean ====
section
/-! DEFINITION. The dispatch of a decoded command to its meaning (41_control R67, 30_encoding R49). -/

namespace Sys2Proof.Machine

/-- What a command does: one arm per row of the opcode table. -/
def exec (i : Instr) (s : State) : Host.Outcome State Fault Refusal :=
  match i with
  | .nop => Sys2Proof.Machine.execNop s
  | .init a b => Sys2Proof.Machine.execInit a b s
  | .reset => Sys2Proof.Machine.execReset s
  | .push a b => Sys2Proof.Machine.execPush a b s
  | .update a => Sys2Proof.Machine.execUpdate a s
  | .dout => Sys2Proof.Machine.execDout s
  | .rout => Sys2Proof.Machine.execRout s
  | .reserved7 => Sys2Proof.Machine.execReserved7 s

end Sys2Proof.Machine
end

