-- ==== Sys2Proof/Machine/HostPort.lean ====
section
/-! DEFINITION. The host's moves: beats, memory accesses under the duties of 70_reset_and_hazards R126,
and a command that is begun and abandoned (R119, 93_implementation_defined I15). -/

namespace Sys2Proof.Machine

/-- Whether a byte address lies in one of the two regions, which exist once INIT has bound them (20_memory R33). -/
def inRegions (s : State) (addr : Nat) : Bool :=
  s.initDone &&
    (decide (s.baseIn.toNat ≤ addr ∧ addr < s.baseIn.toNat + regionSize s.cfg .inp) ||
      decide (s.baseFb.toNat ≤ addr ∧ addr < s.baseFb.toNat + regionSize s.cfg .fb))

/-- The host writes a byte: no byte while a command is in progress, any byte before INIT, and afterwards a byte outside the
regions (20_memory R43 item 3, duties 1 and 2; log entry 6). -/
def hostWrite (addr : Word) (v : Byte) (s : State) : Result :=
  if s.busy || inRegions s addr.toNat then .fault .hostDutyBroken
  else .next { s with mem := s.mem.setByte addr.toNat v }

/-- The host reads a byte, only while no command is in progress (20_memory R43 item 3, duty 2; log entry 6). Reading changes
nothing; what the host sees is `s.mem.byte addr.toNat`. -/
def hostRead (_addr : Word) (s : State) : Result :=
  if s.busy then .fault .hostDutyBroken else .next s

/-- A read of a ring element, with the word the memory holds there. -/
def plannedRead (s : State) (r : Ring) (k : Int) : BusAccess := .read (ringAddr s r k) (s.ringWord r k)

/-- The memory accesses a command makes from `s`, in order (20_memory R39): none of a command that faults. -/
def plannedAccesses (i : Instr) (s : State) : List BusAccess :=
  if s.initDone then
    match i with
    | .push a b =>
      [.write (ringAddr s .inp (pushedWp s .inp)) (sampleOperand a), .write (ringAddr s .fb (pushedWp s .fb)) (sampleOperand b)]
    | .dout => (List.range s.cfg.taps).map fun (j : Nat) => plannedRead s .fb (firBase s + j)
    | .rout => ([s.grain0, s.grain1].filter Grain.active).map fun g => plannedRead s .inp (grainReadIndex g)
    | .nop | .init _ _ | .reset | .update _ | .reserved7 => []
  else []

/-- The coefficient reads a command makes from `s`, in the model's order (70_reset_and_hazards R129; log entry 10). -/
def plannedCoefReads (i : Instr) (s : State) : List CoefRead :=
  if s.initDone then
    match i with
    | .dout => (List.range s.cfg.taps).map fun (j : Nat) => ⟨firSelector s.cfg s.eff, BitVec.ofNat 6 j⟩
    | .nop | .init _ _ | .reset | .push _ _ | .update _ | .rout | .reserved7 => []
  else []

/-- Completes one access: what a read answers goes nowhere, since its command never responds. -/
def completeAccess (x : BusAccess) (s : State) : Except Fault State :=
  match x with
  | .read addr _ => (memRead addr s).map Prod.snd
  | .write addr v => memWrite addr v s

/-- Completes the accesses of `xs` in order. -/
def completeAccesses : List BusAccess → State → Except Fault State
  | [], s => .ok s
  | x :: xs, s => do
    let s ← completeAccess x s
    completeAccesses xs s

/-- The access in flight is the first of `xs`. A write's word takes any value (I15): `torn`, or its own where the write did
not happen. A read has no effect (20_memory R34). The access is not completed, so the trace of completed accesses has none. -/
def tearWord (xs : List BusAccess) (torn : Option Word) (s : State) : Except Fault State :=
  match xs with
  | [] => .ok s
  | .read addr _ :: _ =>
    match accessError addr with
    | some f => .error f
    | none => .ok s
  | .write addr _ :: _ =>
    match accessError addr, torn with
    | some f, _ => .error f
    | none, some v => .ok { s with mem := s.mem.setWord addr v }
    | none, none => .ok s

/-- A command is accepted and does not complete: its first `acks` memory accesses are acknowledged, the next one is in flight,
its first `coefs` coefficient reads are made, BUSY stays 1 and no response is given (10_state R24, R26; 60_exceptions R117;
70_reset_and_hazards R119; log entry 7). -/
def beginCommand (i : Instr) (acks coefs : Nat) (torn : Option Word) (s : State) : Result :=
  let xs := plannedAccesses i s
  let reads := (plannedCoefReads i s).take coefs
  Result.ofExcept do
    let s ← completeAccesses (xs.take acks) s
    let s ← tearWord (xs.drop acks) torn s
    return { s with busy := true, coefReads := s.coefReads ++ reads }

/-- The effect of one move of the host. A beat is accepted when `cmd_ready = 1` and is then one whole command (R3,
30_encoding R51); a beat offered while a command that never completes is in progress has no move (60_exceptions R104). -/
def hostMove (m : HostMove) (s : State) : Result :=
  match m with
  | .beat b => if s.cmdReady then exec (decode b) s else .fault .hang
  | .wait => .next s
  | .powerOnReset => .next (powerOnReset s)
  | .beginBeat b acks coefs torn => if s.cmdReady then beginCommand (decode b) acks coefs torn s else .fault .hang
  | .hostWrite addr v => hostWrite addr v s
  | .hostRead addr => hostRead addr s

end Sys2Proof.Machine
end

