-- ==== Sys2Proof/Machine/Step.lean ====
section
/-! DEFINITION. One step of the machine: the host's next move (00_scope R3, 70_reset_and_hazards R126, R130). -/

namespace Sys2Proof.Machine

/-- One step. A configuration that is not accepted has no machine (00_scope R7). Where the host has no move left the run
has ended (R130) and the core holds its state (60_exceptions R118). -/
def step (s : State) : Host.Outcome State Fault Refusal :=
  if s.cfg.accepted then
    match s.host with
    | [] => .next s
    | m :: rest => hostMove m { s with host := rest }
  else .refused .configNotAccepted

/-- `s` with the host's next move the beat of the word `w`, numbered as the opcode table numbers it, and the command port
ready (log entries 5 and 13). -/
def State.withFetchWord (s : State) (nbits w : Nat) : State :=
  { s with busy := false, host := .beat (Beat.ofTableWord nbits w) :: s.host }

end Sys2Proof.Machine
end

