-- ==== Sys2Proof/Machine/Assembler.lean ====
section
/-! DEFINITION. The assembler of 30_encoding R55 and the pseudo-instructions of R56: host-side text to commands. It is no part of
the core: `step` sees beats only. -/

namespace Sys2Proof.Machine

/-- Why a line does not assemble. Raised by `assemble` and `parseLine`; safe. -/
inductive AsmError where
  /-- an operand that is not `AsmOperand.wellFormed` (R55; log entry 14) -/
  | operandOutOfRange
  /-- text that is no operand of R55 -/
  | notAnOperand
  /-- a first word that is no mnemonic of R55 or R56 -/
  | unknownMnemonic
  /-- more operands than the line takes (log entry 14) -/
  | tooManyOperands
  deriving DecidableEq, Repr

/-- The 32-bit pattern of a well-formed operand (R55): a negative decimal gives its two's complement, and `q(x)` gives
`trunc_32(x * 2^24)`. -/
def asmPattern (o : AsmOperand) : Except AsmError Word :=
  if o.wellFormed then
    match o with
    | .dec v => .ok (BitVec.ofInt 32 v)
    | .hex v => .ok (BitVec.ofNat 32 v)
    | .q num places => .ok (BitVec.ofInt 32 (num * 2 ^ 24 / ((10 ^ places : Nat) : Int)))
  else .error .operandOutOfRange

/-- The commands a line stands for, in order (R55, R56). -/
def assemble (line : AsmLine) : Except AsmError (List Instr) :=
  match line with
  | .nop => .ok [.nop]
  | .init x y => do return [.init (← asmPattern x) (← asmPattern y)]
  | .reset => .ok [.reset]
  | .push x y => do return [.push (← asmPattern x) (← asmPattern y)]
  | .update len => do return [.update (← asmPattern len)]
  | .dout => .ok [.dout]
  | .rout => .ok [.rout]
  | .op7 => .ok [.reserved7]
  | .tick x y len => do
    let push := Instr.push (← asmPattern x) (← asmPattern y)
    return [push, .update (← asmPattern len)]
  | .tickio x y len => do
    let push := Instr.push (← asmPattern x) (← asmPattern y)
    return [push, .update (← asmPattern len), .dout, .rout]
  | .hold => .ok [.update 0]

/-! The text of a line, as characters -/

/-- The value of a digit, `0`-`9` and then `a`-`f` or `A`-`F`. -/
def digitValue (c : Char) : Option Nat :=
  if '0' ≤ c ∧ c ≤ '9' then some (c.toNat - '0'.toNat)
  else if 'a' ≤ c ∧ c ≤ 'f' then some (c.toNat - 'a'.toNat + 10)
  else if 'A' ≤ c ∧ c ≤ 'F' then some (c.toNat - 'A'.toNat + 10)
  else none

/-- The digits `cs` after the number `acc`. -/
def digitsFrom (base : Nat) : List Char → Nat → Option Nat
  | [], acc => some acc
  | c :: cs, acc =>
    match digitValue c with
    | some d => if d < base then digitsFrom base cs (acc * base + d) else none
    | none => none

/-- A number of one digit or more. -/
def parseDigits (base : Nat) (cs : List Char) : Option Nat := if cs = [] then none else digitsFrom base cs 0

/-- A number with a sign in front, if it has one. -/
def signed (neg : Bool) (n : Nat) : Int := if neg then -(n : Int) else n

/-- The text before the first `c`, and the text after it if there is a `c`. -/
def cutAt (c : Char) : List Char → List Char × Option (List Char)
  | [] => ([], none)
  | x :: xs => if x = c then ([], some xs) else let r := cutAt c xs; (x :: r.1, r.2)

/-- The decimal number of `q(...)`: digits, and perhaps a point and more digits. -/
def parseDecimal (neg : Bool) (cs : List Char) : Option AsmOperand :=
  match cutAt '.' cs with
  | (whole, none) => do return .q (signed neg (← parseDigits 10 whole)) 0
  | (whole, some frac) => do
    let w ← parseDigits 10 whole
    let f ← parseDigits 10 frac
    return .q (signed neg (w * 10 ^ frac.length + f)) frac.length

/-- An operand of R55. -/
def parseOperand : List Char → Option AsmOperand
  | '0' :: 'x' :: cs => do return .hex (← parseDigits 16 cs)
  | 'q' :: '(' :: cs =>
    match cutAt ')' cs with
    | ('-' :: inside, some []) => parseDecimal true inside
    | (inside, some []) => parseDecimal false inside
    | _ => none
  | '-' :: cs => do return .dec (signed true (← parseDigits 10 cs))
  | cs => do return .dec (signed false (← parseDigits 10 cs))

/-- The text without the spaces in front of it. -/
def trimLeft : List Char → List Char
  | [] => []
  | c :: cs => if c = ' ' then trimLeft cs else c :: cs

/-- The text without the spaces around it. -/
def trim (cs : List Char) : List Char := (trimLeft (trimLeft cs).reverse).reverse

/-- The operands' texts, cut at commas; a blank text holds none. -/
def operandTexts (cs : List Char) : List (List Char) := if trim cs = [] then [] else (cs.splitOn ',').map trim

/-- The operands' meanings. R55 does not say where an operand may be omitted: a text left blank before, between or after commas is
no operand and is rejected here, and only operands left off whole at the end of the line are omitted ones (DESIGN CHOICE, log
entry 14). -/
def parseOperands : List (List Char) → Except AsmError (List AsmOperand)
  | [] => .ok []
  | t :: ts =>
    match parseOperand t with
    | some o => do return o :: (← parseOperands ts)
    | none => .error .notAnOperand

/-- An operand of a line, 0 where it is omitted (R55). -/
def operandAt (os : List AsmOperand) (n : Nat) : AsmOperand := os.getD n (.dec 0)

/-- The line of a mnemonic and its operands (R55, R56). -/
def lineOf (name : List Char) (os : List AsmOperand) : Except AsmError AsmLine :=
  let withAtMost (n : Nat) (line : AsmLine) : Except AsmError AsmLine :=
    if os.length ≤ n then .ok line else .error .tooManyOperands
  if name = ['N', 'O', 'P'] then withAtMost 0 .nop
  else if name = ['I', 'N', 'I', 'T'] then withAtMost 2 (.init (operandAt os 0) (operandAt os 1))
  else if name = ['R', 'E', 'S', 'E', 'T'] then withAtMost 0 .reset
  else if name = ['P', 'U', 'S', 'H'] then withAtMost 2 (.push (operandAt os 0) (operandAt os 1))
  else if name = ['U', 'P', 'D', 'A', 'T', 'E'] then withAtMost 1 (.update (operandAt os 0))
  else if name = ['D', 'O', 'U', 'T'] then withAtMost 0 .dout
  else if name = ['R', 'O', 'U', 'T'] then withAtMost 0 .rout
  else if name = ['.', 'o', 'p', '7'] then withAtMost 0 .op7
  else if name = ['T', 'I', 'C', 'K'] then withAtMost 3 (.tick (operandAt os 0) (operandAt os 1) (operandAt os 2))
  else if name = ['T', 'I', 'C', 'K', 'I', 'O'] then
    withAtMost 3 (.tickio (operandAt os 0) (operandAt os 1) (operandAt os 2))
  else if name = ['H', 'O', 'L', 'D'] then withAtMost 0 .hold
  else .error .unknownMnemonic

/-- One line of text: `;` starts a comment, and a line without a command is none (R55). -/
def parseLine (text : List Char) : Except AsmError (Option AsmLine) :=
  match trim (cutAt ';' text).1 with
  | [] => .ok none
  | cs =>
    let (name, rest) := cutAt ' ' cs
    do return some (← lineOf name (← parseOperands (operandTexts (rest.getD []))))

/-- The beats a line of text assembles to (R48, R55, R56). -/
def assembleText (text : List Char) : Except AsmError (List Beat) := do
  match ← parseLine text with
  | none => return []
  | some line => return (← assemble line).map encode

end Sys2Proof.Machine
end

