-- ==== Sys2Proof/Safety.lean ====
section
/-! DEFINITION. What a good state is: the invariant of 10_state R32 and 45_grain_engine R96, R97 with the widths and the
region checks that hold by construction, and what a run without errors is (60_exceptions R104). -/

namespace Sys2Proof.Machine

/-- No error bit of `STATUS[5:1]` is set: the premise of 60_exceptions R104. -/
abbrev State.NoError (s : State) : Prop := s.errorBits = 0

/-- The bases passed INIT's checks, if INIT has succeeded (41_control R69, 20_memory R37). -/
abbrev State.RegionsOk (s : State) : Prop :=
  s.initDone = true → basesOk s.cfg s.baseIn.toNat s.baseFb.toNat = true

/-- The ring indices fit their registers (10_state R18, R22). -/
abbrev State.PointersOk (s : State) : Prop :=
  s.wpIn < s.cfg.capIn ∧ s.wpFb < s.cfg.capFb ∧
    s.grain0.readStart < s.cfg.capIn ∧ s.grain1.readStart < s.cfg.capIn

/-- 10_state R32 items 1 and 2. -/
abbrev State.DelayOk (s : State) : Prop :=
  (s.cfg.minGrainSize ≤ s.target.toNat ∧ s.target.toNat ≤ s.cfg.maxGrainSize) ∧
    s.cfg.minGrainSize * 2 ^ 8 ≤ s.eff.toNat ∧ s.eff.toNat ≤ s.cfg.maxGrainSize * 2 ^ 8

/-- `STATUS[7:6]` reads as 0 (10_state R16) and ERR_DIV0 is never set (R32 item 4). -/
abbrev State.StatusOk (s : State) : Prop := s.status.extractLsb' 6 2 = 0 ∧ s.status.getLsbD 5 = false

/-- The grain engine since power-on or RESET, before the first UPDATE (10_state R22, R32 item 3). -/
abbrev State.GrainsFresh (s : State) : Prop := s.origin = .zero ∧ s.grain0 = .cleared ∧ s.grain1 = .cleared

/-- The origin `o` and the predecessor `p` once a grain has been spawned, no grain being longer than MAX_GRAIN_SIZE / 2 samples
(10_state R32 items 3 to 5, 45_grain_engine R96, R97 items 1, 2, 5). The predecessor of the first grain was never spawned and has
length 0. -/
abbrev GrainsRunning (c : Config) (o p : Grain) : Prop :=
  (1 ≤ o.length.toNat ∧ o.length.toNat ≤ c.maxGrainSize / 2 ∧ p.length.toNat ≤ c.maxGrainSize / 2) ∧
  (o.step.toNat = ceilDiv one o.length.toNat ∧ p.step = o.step) ∧
  (o.phase.toInt = (one : Int) - (o.counter.toNat * o.step.toNat : Nat) ∧ (c.thresh : Int) < o.phase.toInt) ∧
  (p.phase.toInt + c.thresh ≤ o.phase.toInt ∧ o.phase.toInt < p.phase.toInt + c.thresh + one) ∧
  (p.length.toNat = 0 → p.phase.toInt ≤ 0) ∧
  p.counter.toNat ≤ o.counter.toNat + (if p.length.toNat = 0 then 1 else (p.length.toNat + 1) / 2)

/-- The grain slots of a state a run reaches. -/
abbrev State.GrainsOk (s : State) : Prop :=
  s.GrainsFresh ∨ GrainsRunning s.cfg (s.grain s.origin) (s.grain s.origin.other)

/-- What holds of every state a run reaches in an accepted configuration. -/
abbrev State.Inv (s : State) : Prop :=
  s.cfg.Accepted ∧ Memory.Canonical s.mem ∧ s.RegionsOk ∧ s.PointersOk ∧ s.DelayOk ∧ s.StatusOk ∧ s.GrainsOk

/-- The age, in the IN ring, of the sample a slot reads: how far its index lies behind the newest sample's (45_grain_engine
R96, 42_ring_buffer R76). -/
def State.readAge (s : State) (g : Slot) : Int := (grainReadIndex (s.grain g) - (s.wpIn : Int)) % (s.cfg.capIn : Int)

/-- Every Active slot reads the sample of age `2 * COUNTER`: what a run of ticks, each a PUSH and then an UPDATE, keeps
(45_grain_engine R96). -/
abbrev State.TickAges (s : State) : Prop :=
  ∀ g : Slot, (s.grain g).active = true → s.readAge g = 2 * ((s.grain g).counter.toNat : Int)

/-- The commands `is`, one after the other. -/
def execAll : List Instr → State → Result
  | [], s => .next s
  | i :: is, s =>
    match exec i s with
    | .next t => execAll is t
    | .fault f => .fault f
    | .refused r => .refused r

end Sys2Proof.Machine
end

