-- ==== Sys2Proof/Certificates/Slice0/Obligations.lean ====
section
/-! DEFINITION. The statements about the model, each from the rules of the spec its docstring names. -/

open Sys2Proof Sys2Proof.Machine

/-! ## Encoding -/

/-- 30_encoding R49, R50, R53, R54: the op field alone selects the command, for every value of the operand fields. -/
def Obligations.OpFieldAloneSelectsTheCommand : Prop :=
  ∀ a b : Word,
    decode ⟨0, a, b⟩ = .nop ∧ decode ⟨1, a, b⟩ = .init a b ∧ decode ⟨2, a, b⟩ = .reset ∧
    decode ⟨3, a, b⟩ = .push a b ∧ decode ⟨4, a, b⟩ = .update a ∧ decode ⟨5, a, b⟩ = .dout ∧
    decode ⟨6, a, b⟩ = .rout ∧ decode ⟨7, a, b⟩ = .reserved7

/-- 30_encoding R48: words written out as `op:bbbbbbbb:aaaaaaaa` (95_test_vectors V-CTL, W1, V-SM-3) read as the commands they
stand for. -/
def Obligations.WrittenBeatsDecode : Prop :=
  decodeBits 0x00000000000000000 = .ok .nop ∧
  decodeBits 0x12002000020000000 = .ok (.init 0x20000000 0x20020000) ∧
  decodeBits 0x20000000000000000 = .ok .reset ∧
  decodeBits 0x3FF80000001000000 = .ok (.push 0x01000000 0xFF800000) ∧
  decodeBits 0x400000000FFFFFFFF = .ok (.update 0xFFFFFFFF) ∧
  decodeBits 0x50000000000000000 = .ok .dout ∧
  decodeBits 0x60000000000000000 = .ok .rout ∧
  decodeBits 0x70000000000000000 = .ok .reserved7

/-- 30_encoding R48, R50, R54: a command's 67-bit beat decodes to it whatever its ignored fields hold, every 67-bit value is
such a beat of the command it decodes to (no bit is dropped), and a wider number is rejected by name. -/
def Obligations.BeatsAndCommandsRoundTrip : Prop :=
  (∀ (i : Instr) (x y : Word), i.wellFormed = true → decodeBits (encodeWith x y i).pack.toNat = .ok i) ∧
  (∀ w : Nat, w < 2 ^ 67 →
    ∃ (i : Instr) (x y : Word), decodeBits w = .ok i ∧ w = (encodeWith x y i).pack.toNat) ∧
  (∀ w : Nat, 2 ^ 67 ≤ w → decodeBits w = .error .widerThanABeat)

/-- 30_encoding R50: two beats that differ only in the fields their command ignores take every state to the same place. -/
def Obligations.IgnoredFieldsHaveNoEffect : Prop :=
  ∀ (i : Instr) (x y x' y' : Word) (s : State) (rest : List HostMove),
    step { s with host := .beat (encodeWith x y i) :: rest } = step { s with host := .beat (encodeWith x' y' i) :: rest }

/-! ## The step -/

/-- 00_scope R3, 30_encoding R51: an accepted beat is one step, and the step is `exec` of the command it decodes to; the step
takes the beat from the host's moves and changes nothing else. -/
def Obligations.StepRunsTheDecodedCommand : Prop :=
  ∀ (s : State) (b : Beat) (rest : List HostMove),
    s.cfg.Accepted → s.busy = false → s.host = .beat b :: rest →
      step s = exec (decode b) { s with host := rest }

/-- 00_scope R3, 30_encoding R51: each command gives exactly one response, after those given before. -/
def Obligations.EachCommandRespondsOnce : Prop :=
  ∀ (i : Instr) (s t : State), exec i s = .next t → ∃ r : Response, t.responses = s.responses ++ [r]

/-- 00_scope R7, R6: a configuration that fails a condition of R7, or is not accepted for another reason, has no machine. -/
def Obligations.UnacceptedConfigurationIsRefused : Prop :=
  ∀ s : State,
    ((s.cfg.capFb < s.cfg.maxGrainSize + s.cfg.taps / 2 ∨ s.cfg.minGrainSize < s.cfg.taps / 2 ∨
        s.cfg.capIn < s.cfg.maxGrainSize + 1) → step s = .refused .configNotAccepted) ∧
    (¬ s.cfg.Accepted → step s = .refused .configNotAccepted)

/-- 60_exceptions R118, 70_reset_and_hazards R130: with no move of the host, or while it waits, the core holds its state. -/
def Obligations.CoreHoldsItsStateBetweenCommands : Prop :=
  ∀ s : State, s.cfg.Accepted →
    (s.host = [] → step s = .next s) ∧
    (∀ rest, s.host = .wait :: rest → step s = .next { s with host := rest })

/-- 00_scope R12, 60_exceptions R104 ('stuck: none inside the core'): every command has a defined result in every state whose
bases passed INIT's checks. -/
def Obligations.EveryCommandHasAResult : Prop :=
  ∀ (i : Instr) (s : State), s.RegionsOk → ∃ t : State, exec i s = .next t

/-! ## Memory -/

/-- 20_memory R34, R35: a read of an aligned word answers the four bytes little-endian, as one read on the port, and leaves the
memory; a write is one write on the port, stores the word's four bytes little-endian and no other byte, and is what the next read
of that address answers. -/
def Obligations.WordAccessesAreLittleEndian : Prop :=
  ∀ (s : State) (addr : Nat) (v : Word), Memory.Canonical s.mem → addr % 4 = 0 → addr + 3 < 2 ^ 32 →
    (∃ w : Word, memRead addr s = .ok (w, { s with bus := s.bus ++ [.read addr w] }) ∧
      w.extractLsb' 0 8 = s.mem.byte addr ∧ w.extractLsb' 8 8 = s.mem.byte (addr + 1) ∧
      w.extractLsb' 16 8 = s.mem.byte (addr + 2) ∧ w.extractLsb' 24 8 = s.mem.byte (addr + 3)) ∧
    (∃ m : Memory, memWrite addr v s = .ok { s with mem := m, bus := s.bus ++ [.write addr v] } ∧
      m.byte addr = v.extractLsb' 0 8 ∧ m.byte (addr + 1) = v.extractLsb' 8 8 ∧
      m.byte (addr + 2) = v.extractLsb' 16 8 ∧ m.byte (addr + 3) = v.extractLsb' 24 8 ∧
      (∀ x : Nat, x < addr ∨ addr + 4 ≤ x → m.byte x = s.mem.byte x) ∧ m.word addr = v)

/-- The memory's form (log entry 3): memories in canonical form that read alike at every address are the same data. -/
def Obligations.CanonicalMemoriesAreEqualWhenTheyReadAlike : Prop :=
  ∀ m n : Memory, m.Canonical → n.Canonical → (∀ x : Nat, m.byte x = n.byte x) → m = n

/-- Every step keeps the memory in canonical form, from every state (20_memory R33 gives the addresses). -/
def Obligations.EveryStepKeepsTheMemoryCanonical : Prop :=
  ∀ s t : State, Memory.Canonical s.mem → step s = .next t → Memory.Canonical t.mem

/-- 20_memory R39: the memory accesses of each command, in the order the core performs them; no command makes another. -/
def Obligations.EachCommandMakesItsAccessesInOrder : Prop :=
  ∀ (i : Instr) (s t : State), exec i s = .next t →
    t.bus = s.bus ++
      (match i with
      | .push a b =>
        if s.initDone = true then
          [.write (ringAddr s .inp ((s.wpIn : Int) - 1)) a, .write (ringAddr s .fb ((s.wpFb : Int) - 1)) b]
        else []
      | .dout =>
        if s.initDone = true then
          (List.range s.cfg.taps).map fun (j : Nat) =>
            .read (ringAddr s .fb (firBase s + j)) (s.ringWord .fb (firBase s + j))
        else []
      | .rout =>
        if s.initDone = true then
          (if 0 < s.grain0.phase.toInt then
            [.read (ringAddr s .inp (grainReadIndex s.grain0)) (s.ringWord .inp (grainReadIndex s.grain0))]
          else []) ++
          (if 0 < s.grain1.phase.toInt then
            [.read (ringAddr s .inp (grainReadIndex s.grain1)) (s.ringWord .inp (grainReadIndex s.grain1))]
          else [])
        else []
      | .nop | .init _ _ | .reset | .update _ | .reserved7 => [])

/-! ## Whole-machine rules -/

/-- 10_state R31, column 'written by', with R16-R22: what a command that is not named there leaves as it was. -/
def Obligations.OnlyTheNamedCommandsWriteEachRegister : Prop :=
  ∀ (i : Instr) (s t : State), exec i s = .next t →
    ((∀ a b, i ≠ .init a b) → t.initDone = s.initDone ∧ t.baseIn = s.baseIn ∧ t.baseFb = s.baseFb) ∧
    ((∀ a b, i ≠ .init a b) → (∀ a b, i ≠ .push a b) → t.wpIn = s.wpIn ∧ t.wpFb = s.wpFb) ∧
    ((∀ a, i ≠ .update a) → i ≠ .reset →
      t.target = s.target ∧ t.eff = s.eff ∧ t.origin = s.origin ∧ t.grain0 = s.grain0 ∧ t.grain1 = s.grain1) ∧
    ((∀ a b, i ≠ .push a b) → ∀ x : Nat, t.mem.byte x = s.mem.byte x) ∧
    (t.cfg = s.cfg ∧ t.busy = s.busy ∧ t.host = s.host)

/-- 60_exceptions R106, R109: a command that responds with `rsp_err = 1` and a cause of 1 to 4 sets that bit of STATUS and
changes nothing else; every error response carries a cause of 1 to 5. -/
def Obligations.FaultsChangeStatusAndResponseOnly : Prop :=
  ∀ (i : Instr) (s t : State) (d : Word), exec i s = .next t → t.responses = s.responses ++ [⟨true, d⟩] →
    (1 ≤ d.toNat ∧ d.toNat ≤ 5) ∧
    (d.toNat ≤ 4 →
      t = { s with
        status := s.status ||| BitVec.ofNat 8 (2 ^ d.toNat)
        responses := s.responses ++ [⟨true, d⟩] })

/-- 10_state R16, 60_exceptions R110: no bit of STATUS is ever cleared but by power-on reset, and bits 7:6 are never written. -/
def Obligations.StatusBitsAreSticky : Prop :=
  ∀ s t : State, step s = .next t → (∀ rest, s.host ≠ .powerOnReset :: rest) →
    s.status &&& t.status = s.status ∧ t.status.extractLsb' 6 2 = s.status.extractLsb' 6 2

/-! ## Power-on reset and the host's moves -/

/-- 70_reset_and_hazards R119, 10_state R26: power-on reset gives every register its value, makes no memory access, gives no
response and abandons a command in progress, from every state. -/
def Obligations.PowerOnResetSetsEveryRegister : Prop :=
  ∀ (s : State) (rest : List HostMove), s.cfg.Accepted → s.host = .powerOnReset :: rest →
    step s = .next
      { s with
        host := rest, status := 0, baseIn := 0, baseFb := 0, wpIn := 0, wpFb := 0, origin := .zero
        grain0 := ⟨0, 0, 0, 0, 0⟩, grain1 := ⟨0, 0, 0, 0, 0⟩
        target := BitVec.ofNat 32 s.cfg.resetTarget, eff := BitVec.ofNat 32 s.cfg.resetTarget <<< 8, busy := false }

/-- 70_reset_and_hazards R119, 93 I15: a PUSH abandoned after `acks` of its writes were acknowledged gives no response; an
acknowledged write has happened and was seen on the port, the word in flight holds any value, and no other byte changes. How the
host's move says so is the model's choice (log entry 7). -/
def Obligations.AbandonedPushWritesOnlyItsWords : Prop :=
  ∀ (s : State) (a b : Word) (acks coefs : Nat) (torn : Option Word) (rest : List HostMove),
    s.cfg.Accepted → Memory.Canonical s.mem → s.busy = false → s.initDone = true →
    basesOk s.cfg s.baseIn.toNat s.baseFb.toNat = true →
    s.host = .beginBeat (encode (.push a b)) acks coefs torn :: .powerOnReset :: rest →
    let wIn := ringAddr s .inp ((s.wpIn : Int) - 1)
    let wFb := ringAddr s .fb ((s.wpFb : Int) - 1)
    ∃ t u : State, step s = .next t ∧ t.busy = true ∧ step t = .next u ∧ u.busy = false ∧
      u.responses = s.responses ∧ u.status = 0 ∧
      u.bus = s.bus ++ [BusAccess.write wIn a, .write wFb b].take acks ∧
      (1 ≤ acks → u.mem.word wIn = a) ∧
      (2 ≤ acks → u.mem.word wFb = b) ∧
      (acks = 0 → u.mem.word wIn = torn.getD (s.mem.word wIn) ∧ u.mem.word wFb = s.mem.word wFb) ∧
      (acks = 1 → u.mem.word wFb = torn.getD (s.mem.word wFb)) ∧
      (∀ x : Nat, (x < wIn ∨ wIn + 4 ≤ x) → (x < wFb ∨ wFb + 4 ≤ x) → u.mem.byte x = s.mem.byte x)

/-- 20_memory R43, 70_reset_and_hazards R126 (1, 2, 8, 12): while a command is in progress the host has no move that reads or writes
memory; after INIT it has none that writes a region; between commands it writes any byte before INIT and a byte outside the regions
afterwards, and reads any byte without effect. The name of the stop is the model's choice (log entry 6). -/
def Obligations.HostAccessesMemoryOnlyWithinItsDuties : Prop :=
  ∀ (s : State) (addr : Word) (v : Byte) (rest : List HostMove), s.cfg.Accepted →
    let inRegion :=
      (s.baseIn.toNat ≤ addr.toNat ∧ addr.toNat < s.baseIn.toNat + 4 * s.cfg.capIn) ∨
      (s.baseFb.toNat ≤ addr.toNat ∧ addr.toNat < s.baseFb.toNat + 4 * s.cfg.capFb)
    (s.host = .hostWrite addr v :: rest →
      (s.busy = true ∨ (s.initDone = true ∧ inRegion) → step s = .fault .hostDutyBroken) ∧
      (s.busy = false → s.initDone = false ∨ ¬ inRegion → Memory.Canonical s.mem →
        ∃ m : Memory, step s = .next { s with host := rest, mem := m } ∧
          ∀ x : Nat, m.byte x = if x = addr.toNat then v else s.mem.byte x)) ∧
    (s.host = .hostRead addr :: rest →
      (s.busy = true → step s = .fault .hostDutyBroken) ∧
      (s.busy = false → step s = .next { s with host := rest }))

/-! ## Control commands -/

/-- 41_control R68: NOP responds (0, 0) in any state and changes nothing else. -/
def Obligations.NopOnlyResponds : Prop :=
  ∀ s : State, exec .nop s = .next { s with responses := s.responses ++ [⟨false, 0⟩] }

/-- 41_control R69: a first INIT with aligned, fitting, disjoint regions binds them; a second INIT faults with cause 2 whatever
its operands; a first INIT with a misaligned base, a region past 2^32 or overlapping regions faults with cause 3. -/
def Obligations.InitBindsTheRings : Prop :=
  ∀ (s : State) (a b : Word),
    (s.initDone = false →
      a.toNat % 4 = 0 → b.toNat % 4 = 0 →
      a.toNat + 4 * s.cfg.capIn ≤ 2 ^ 32 → b.toNat + 4 * s.cfg.capFb ≤ 2 ^ 32 →
      (a.toNat + 4 * s.cfg.capIn ≤ b.toNat ∨ b.toNat + 4 * s.cfg.capFb ≤ a.toNat) →
        exec (.init a b) s = .next
          { s with
            baseIn := a, baseFb := b, wpIn := 0, wpFb := 0, status := s.status ||| 1
            responses := s.responses ++ [⟨false, 0⟩] }) ∧
    (s.initDone = true →
      exec (.init a b) s =
        .next { s with status := s.status ||| 4, responses := s.responses ++ [⟨true, 2⟩] }) ∧
    (s.initDone = false →
      (a.toNat % 4 ≠ 0 ∨ b.toNat % 4 ≠ 0 ∨
        2 ^ 32 < a.toNat + 4 * s.cfg.capIn ∨ 2 ^ 32 < b.toNat + 4 * s.cfg.capFb ∨
        ¬ (a.toNat + 4 * s.cfg.capIn ≤ b.toNat ∨ b.toNat + 4 * s.cfg.capFb ≤ a.toNat)) →
      exec (.init a b) s =
        .next { s with status := s.status ||| 8, responses := s.responses ++ [⟨true, 3⟩] })

/-- 60_exceptions R108: the one cause a command reports, the first check that applies, from op 7 to the empty grain; a command to
which none applies responds without error. -/
def Obligations.OneCauseByPriority : Prop :=
  ∀ (i : Instr) (s t : State), exec i s = .next t →
    let cause : Nat :=
      match i with
      | .reserved7 => 4
      | .nop => 0
      | .init a b =>
        if s.initDone = true then 2
        else if a.toNat % 4 ≠ 0 ∨ b.toNat % 4 ≠ 0 ∨
            2 ^ 32 < a.toNat + 4 * s.cfg.capIn ∨ 2 ^ 32 < b.toNat + 4 * s.cfg.capFb ∨
            ¬ (a.toNat + 4 * s.cfg.capIn ≤ b.toNat ∨ b.toNat + 4 * s.cfg.capFb ≤ a.toNat) then 3
        else 0
      | .update a =>
        if s.initDone = false then 1
        else if ((s.grain s.origin).phase - (s.grain s.origin).step).toInt ≤ (s.cfg.thresh : Int) ∧
            (newEff s.cfg (newTarget s.cfg s.target a) s.eff).toNat / 2 ^ 9 = 0 then 5
        else 0
      | .reset | .push _ _ | .dout | .rout => if s.initDone = false then 1 else 0
    ∃ r : Response, t.responses = s.responses ++ [r] ∧
      (r.err = true ↔ cause ≠ 0) ∧ (cause ≠ 0 → r.data.toNat = cause)

/-- 41_control R70: RESET sets the engine state to its defaults and leaves the pointers, the bases, STATUS and the memory; before
INIT it faults with cause 1. -/
def Obligations.ResetRederivesTheEngine : Prop :=
  ∀ s : State,
    (s.initDone = true →
      exec .reset s = .next
        { s with
          origin := .zero, grain0 := ⟨0, 0, 0, 0, 0⟩, grain1 := ⟨0, 0, 0, 0, 0⟩
          target := BitVec.ofNat 32 s.cfg.resetTarget, eff := BitVec.ofNat 32 s.cfg.resetTarget <<< 8
          responses := s.responses ++ [⟨false, 0⟩] }) ∧
    (s.initDone = false →
      exec .reset s = .next { s with status := s.status ||| 2, responses := s.responses ++ [⟨true, 1⟩] })

/-- 41_control R70, corner cases: RESET twice in a row equals RESET once, and then ROUT responds 0 without a memory read. -/
def Obligations.ResetIsIdempotentAndSilent : Prop :=
  ∀ s : State, s.initDone = true →
    ∃ t : State, exec .reset s = .next t ∧
      exec .reset t = .next { t with responses := t.responses ++ [⟨false, 0⟩] } ∧
      exec .rout t = .next { t with responses := t.responses ++ [⟨false, 0⟩] }

/-- 41_control R71, 30_encoding R53: the reserved opcode faults with cause 4 in any state. -/
def Obligations.ReservedOpcodeAlwaysFaults : Prop :=
  ∀ s : State,
    exec .reserved7 s = .next { s with status := s.status ||| 16, responses := s.responses ++ [⟨true, 4⟩] }

/-- 41_control R67, 60_exceptions R105 (cause 1), R108: RESET, PUSH, UPDATE, DOUT and ROUT before INIT fault with cause 1. -/
def Obligations.CommandsBeforeInitFault : Prop :=
  ∀ (s : State) (i : Instr), s.initDone = false →
    (i = .reset ∨ (∃ a b, i = .push a b) ∨ (∃ a, i = .update a) ∨ i = .dout ∨ i = .rout) →
      exec i s = .next { s with status := s.status ||| 2, responses := s.responses ++ [⟨true, 1⟩] }

/-! ## PUSH and the rings -/

/-- 42_ring_buffer R75: PUSH moves both pointers down by one, modulo the capacity, and stores its operands at the elements they
then name, the IN write first; every other byte and register is as before. Before INIT it faults with cause 1. -/
def Obligations.PushStoresBothSamples : Prop :=
  ∀ (s : State) (a b : Word),
    (s.initDone = true → basesOk s.cfg s.baseIn.toNat s.baseFb.toNat = true → Memory.Canonical s.mem →
      let i := (((s.wpIn : Int) - 1) % (s.cfg.capIn : Int)).toNat
      let f := (((s.wpFb : Int) - 1) % (s.cfg.capFb : Int)).toNat
      let wIn := s.baseIn.toNat + 4 * i
      let wFb := s.baseFb.toNat + 4 * f
      ∃ m : Memory,
        exec (.push a b) s = .next
          { s with
            wpIn := i, wpFb := f, mem := m
            bus := s.bus ++ [.write wIn a, .write wFb b]
            responses := s.responses ++ [⟨false, 0⟩] } ∧
        m.word wIn = a ∧ m.word wFb = b ∧
        ∀ x : Nat, (x < wIn ∨ wIn + 4 ≤ x) → (x < wFb ∨ wFb + 4 ≤ x) → m.byte x = s.mem.byte x) ∧
    (s.initDone = false →
      exec (.push a b) s = .next { s with status := s.status ||| 2, responses := s.responses ++ [⟨true, 1⟩] })

/-- 42_ring_buffer R76, R77: after the pushes `ps`, the element of age `d` holds what the push issued `d` pushes ago stored, an
older one what it held before, and the rings are periodic in their capacities. -/
def Obligations.RingsHoldThePushHistory : Prop :=
  ∀ (s : State) (ps : List (Word × Word)), s.initDone = true →
    basesOk s.cfg s.baseIn.toNat s.baseFb.toNat = true → Memory.Canonical s.mem →
    ∃ t : State, execAll (ps.map fun p => Instr.push p.1 p.2) s = .next t ∧
      (∀ d : Nat, d < s.cfg.capIn →
        t.ringWord .inp ((t.wpIn : Int) + d) =
          if d < ps.length then (ps.reverse.getD d (0, 0)).1 else s.ringWord .inp ((t.wpIn : Int) + d)) ∧
      (∀ d : Nat, d < s.cfg.capFb →
        t.ringWord .fb ((t.wpFb : Int) + d) =
          if d < ps.length then (ps.reverse.getD d (0, 0)).2 else s.ringWord .fb ((t.wpFb : Int) + d)) ∧
      (∀ k : Int, t.ringWord .inp (k + s.cfg.capIn) = t.ringWord .inp k ∧
        t.ringWord .fb (k + s.cfg.capFb) = t.ringWord .fb k)

/-- 70_reset_and_hazards R123: PUSH then UPDATE and UPDATE then PUSH differ only in the READ_START of a grain spawned in the tick,
which is the previous tick's pointer in the second order. -/
def Obligations.PushAndUpdateOrderMattersOnlyToReadStart : Prop :=
  ∀ (s : State) (a b r : Word), s.Inv → s.initDone = true →
    ∃ u v : State,
      execAll [.push a b, .update r] s = .next u ∧ execAll [.update r, .push a b] s = .next v ∧
      u.origin = v.origin ∧
      (u.origin = s.origin → u = v) ∧
      (u.origin ≠ s.origin →
        (u.grain u.origin).readStart = u.wpIn ∧ (v.grain v.origin).readStart = s.wpIn ∧
        v = u.setGrain u.origin { u.grain u.origin with readStart := s.wpIn })

/-! ## UPDATE: the smoother -/

/-- 43_delay_smoother R78: a request in range becomes the target; another, a negative one included, leaves it. -/
def Obligations.RequestInRangeBecomesTheTarget : Prop :=
  ∀ (s : State) (a : Word), s.initDone = true →
    ∃ t : State, exec (.update a) s = .next t ∧
      ((s.cfg.minGrainSize : Int) ≤ a.toInt → a.toInt ≤ (s.cfg.maxGrainSize : Int) → t.target = a) ∧
      (a.toInt < (s.cfg.minGrainSize : Int) ∨ (s.cfg.maxGrainSize : Int) < a.toInt → t.target = s.target)

/-- 43_delay_smoother R79: EFF after one UPDATE, from the target that UPDATE leaves. -/
def Obligations.SmootherLeavesTheScaledDistance : Prop :=
  ∀ (s : State) (a : Word), s.cfg.Accepted → s.DelayOk → s.initDone = true →
    ∃ t : State, exec (.update a) s = .next t ∧
      let dst := t.target.toNat * 256
      let src := s.eff.toNat
      (src < dst → t.eff.toNat = dst - (dst - src) * s.cfg.smoothK / 2 ^ s.cfg.smoothShift) ∧
      (dst < src → t.eff.toNat = dst + (src - dst) * s.cfg.smoothK / 2 ^ s.cfg.smoothShift) ∧
      (src = dst → t.eff = s.eff)

/-- 43_delay_smoother R81: the distance to the target never grows, shrinks while it is not 0, and EFF stays on its side. -/
def Obligations.SmootherNeverOvershoots : Prop :=
  ∀ (s : State) (a : Word), s.cfg.Accepted → s.DelayOk → s.initDone = true →
    ∃ t : State, exec (.update a) s = .next t ∧
      let dst := t.target.toNat * 256
      (s.eff.toNat < dst → s.eff.toNat < t.eff.toNat ∧ t.eff.toNat ≤ dst) ∧
      (dst < s.eff.toNat → t.eff.toNat < s.eff.toNat ∧ dst ≤ t.eff.toNat) ∧
      (s.eff.toNat = dst → t.eff.toNat = dst)

/-- 43_delay_smoother R81: UPDATEs with one and the same request bring EFF to exactly the target after finitely many, and it
stays there. -/
def Obligations.SmootherReachesTheTarget : Prop :=
  ∀ (s : State) (a : Word), s.Inv → s.initDone = true →
    ∃ N : Nat, ∀ n : Nat, N ≤ n →
      ∃ t : State, execAll (List.replicate n (.update a)) s = .next t ∧ t.eff.toNat = t.target.toNat * 256

/-- 43_delay_smoother R82: how far one UPDATE moves EFF, from the distance it finds and over all states. -/
def Obligations.SmootherStepIsBounded : Prop :=
  ∀ (s : State) (a : Word), s.cfg.Accepted → s.DelayOk → s.initDone = true →
    ∃ t : State, exec (.update a) s = .next t ∧
      let e := ((t.target.toNat : Int) * 256 - s.eff.toNat).natAbs
      let moved := ((t.eff.toNat : Int) - s.eff.toNat).natAbs
      let rest := 2 ^ s.cfg.smoothShift - s.cfg.smoothK
      moved = e - e * s.cfg.smoothK / 2 ^ s.cfg.smoothShift ∧
      moved ≤ ceilDiv (e * rest) (2 ^ s.cfg.smoothShift) ∧
      moved ≤ ceilDiv ((s.cfg.maxGrainSize - s.cfg.minGrainSize) * 256 * rest) (2 ^ s.cfg.smoothShift)

/-- 43_delay_smoother R83: from the same distance below and above, one UPDATE leaves the same distance. -/
def Obligations.SmootherIsSymmetric : Prop :=
  ∀ (s s' : State) (a : Word) (x : Nat), s.cfg.Accepted → s'.cfg = s.cfg → s'.target = s.target →
    s.DelayOk → s'.DelayOk → s.initDone = true → s'.initDone = true →
    s.eff.toNat + x = (newTarget s.cfg s.target a).toNat * 256 →
    s'.eff.toNat = (newTarget s.cfg s.target a).toNat * 256 + x →
    ∃ t t' : State, exec (.update a) s = .next t ∧ exec (.update a) s' = .next t' ∧
      t.eff.toNat + x * s.cfg.smoothK / 2 ^ s.cfg.smoothShift = t.target.toNat * 256 ∧
      t'.eff.toNat = t'.target.toNat * 256 + x * s.cfg.smoothK / 2 ^ s.cfg.smoothShift

/-! ## UPDATE: the grain engine -/

/-- 45_grain_engine R92, R93: where the origin stays above the threshold, both slots advance, Inactive or not, and nothing is
spawned; TARGET and EFF are the smoother's. -/
def Obligations.UpdateAdvancesBothSlots : Prop :=
  ∀ (s : State) (a : Word), s.initDone = true →
    (s.cfg.thresh : Int) < ((s.grain s.origin).phase - (s.grain s.origin).step).toInt →
    exec (.update a) s = .next
      { s with
        target := newTarget s.cfg s.target a
        eff := newEff s.cfg (newTarget s.cfg s.target a) s.eff
        grain0 := { s.grain0 with phase := s.grain0.phase - s.grain0.step, counter := s.grain0.counter + 1 }
        grain1 := { s.grain1 with phase := s.grain1.phase - s.grain1.step, counter := s.grain1.counter + 1 }
        responses := s.responses ++ [⟨false, 0⟩] }

/-- 45_grain_engine R91, R93: where the origin's phase is at or below the threshold after the advance, the other slot becomes the
origin and starts with the length and step of R91, and the step is copied onto both slots. -/
def Obligations.UpdateSpawnsAtTheThreshold : Prop :=
  ∀ (s : State) (a : Word), s.initDone = true →
    ((s.grain s.origin).phase - (s.grain s.origin).step).toInt ≤ (s.cfg.thresh : Int) →
    let eff := newEff s.cfg (newTarget s.cfg s.target a) s.eff
    let len := eff.toNat / 2 ^ 9
    let grainStep := BitVec.ofNat 32 ((2 ^ 28 + len - 1) / len)
    1 ≤ len →
    exec (.update a) s = .next
      ((({ s with
          target := newTarget s.cfg s.target a
          eff := eff
          origin := s.origin.other
          responses := s.responses ++ [Response.mk false 0] }).setGrain s.origin
        { s.grain s.origin with
          phase := (s.grain s.origin).phase - (s.grain s.origin).step
          counter := (s.grain s.origin).counter + 1
          step := grainStep }).setGrain s.origin.other
        (Grain.mk (BitVec.ofNat 32 (2 ^ 28)) grainStep 0 s.wpIn (BitVec.ofNat 32 len)))

/-- 60_exceptions R107, 45_grain_engine R91: a spawn that finds length 0 uses the step ONE, completes the UPDATE, and reports
cause 5. No run reaches such a state (10_state R32). -/
def Obligations.EmptyGrainReportsDivZero : Prop :=
  ∀ (s : State) (a : Word), s.initDone = true →
    ((s.grain s.origin).phase - (s.grain s.origin).step).toInt ≤ (s.cfg.thresh : Int) →
    let eff := newEff s.cfg (newTarget s.cfg s.target a) s.eff
    eff.toNat / 2 ^ 9 = 0 →
    exec (.update a) s = .next
      ((({ s with
          target := newTarget s.cfg s.target a
          eff := eff
          origin := s.origin.other
          status := s.status ||| 32
          responses := s.responses ++ [Response.mk true 5] }).setGrain s.origin
        { s.grain s.origin with
          phase := (s.grain s.origin).phase - (s.grain s.origin).step
          counter := (s.grain s.origin).counter + 1
          step := BitVec.ofNat 32 (2 ^ 28) }).setGrain s.origin.other
        (Grain.mk (BitVec.ofNat 32 (2 ^ 28)) (BitVec.ofNat 32 (2 ^ 28)) 0 s.wpIn 0))

/-- 40_fixed_point R65, 45_grain_engine R91: the step of a length of `len` samples lies in 1..ONE and brings a phase from ONE to 0 or
below in exactly `ceil_div(ONE, STEP)` steps of that size, at most `len`, and exactly `len` where `len * (len - 1) < ONE`. How long
a slot is Active also depends on the steps that later spawns copy onto it (R93), of which this says nothing. -/
def Obligations.StepEndsThePhaseWithinTheLength : Prop :=
  ∀ len : Nat, 1 ≤ len →
    (1 ≤ grainStep len ∧ grainStep len ≤ 2 ^ 28) ∧
    (∀ n : Nat, 0 < (2 ^ 28 : Int) - (n * grainStep len : Nat) ↔ n < ceilDiv (2 ^ 28) (grainStep len)) ∧
    ceilDiv (2 ^ 28) (grainStep len) ≤ len ∧
    (len * (len - 1) < 2 ^ 28 → ceilDiv (2 ^ 28) (grainStep len) = len)

/-! ## The invariant -/

/-- 70_reset_and_hazards R119, 10_state R32: right after power-on reset, in every accepted configuration and whatever the memory
holds, the invariant holds; the reset state is one of these. -/
def Obligations.LaunchMeetsTheInvariant : Prop :=
  (∀ (cfg : Config) (mem : Memory) (host : List HostMove), cfg.Accepted → Memory.Canonical mem →
    (State.launch cfg mem host).Inv) ∧ State.reset.Inv

/-- 10_state R32, 45_grain_engine R97: every step keeps the invariant, whatever the host does. -/
def Obligations.EveryStepKeepsTheInvariant : Prop :=
  ∀ s t : State, s.Inv → step s = .next t → t.Inv

/-- 10_state R32: after power-on reset and any moves of the host, TARGET and EFF are in range, the steps are equal and at most
2^28, and 0 only while the grain engine is as power-on or RESET left it, a spawn would find a length of at least 1, ERR_DIV0 is
not set, and no phase is above ONE. -/
def Obligations.EveryRunKeepsTheRangesOfR32 : Prop :=
  ∀ (cfg : Config) (mem : Memory) (host : List HostMove) (k : Nat) (t : State),
    cfg.Accepted → Memory.Canonical mem → Host.Core.run Sys2Proof.core k (State.launch cfg mem host) = .next t →
    (cfg.minGrainSize ≤ t.target.toNat ∧ t.target.toNat ≤ cfg.maxGrainSize) ∧
    (cfg.minGrainSize * 256 ≤ t.eff.toNat ∧ t.eff.toNat ≤ cfg.maxGrainSize * 256 ∧ t.eff.toNat < 2 ^ 31) ∧
    (t.grain0.step = t.grain1.step ∧ t.grain0.step.toNat ≤ 2 ^ 28 ∧
      (1 ≤ t.grain0.step.toNat ∨ (t.origin = .zero ∧ t.grain0 = ⟨0, 0, 0, 0, 0⟩ ∧ t.grain1 = ⟨0, 0, 0, 0, 0⟩))) ∧
    (1 ≤ t.eff.toNat / 2 ^ 9 ∧ t.status.getLsbD 5 = false) ∧
    (t.grain0.phase.toInt ≤ 2 ^ 28 ∧ t.grain1.phase.toInt ≤ 2 ^ 28)

/-- 45_grain_engine R97 items 1 to 3: after an UPDATE there is one origin, above the threshold and Active, and one predecessor, at
least THRESH below it, with the same step in 1..2^28; a spawn happens exactly when the origin's phase crosses the threshold. -/
def Obligations.UpdateLeavesOneOriginAndOnePredecessor : Prop :=
  ∀ (s : State) (a : Word), s.Inv → s.initDone = true →
    ∃ t : State, exec (.update a) s = .next t ∧
      (2 ^ 27 < (t.grain t.origin).phase.toInt ∧ (t.grain t.origin).phase.toInt ≤ 2 ^ 28) ∧
      (t.grain t.origin.other).phase.toInt ≤ (t.grain t.origin).phase.toInt - 2 ^ 27 ∧
      (t.grain t.origin.other).step = (t.grain t.origin).step ∧
      (1 ≤ (t.grain t.origin).step.toNat ∧ (t.grain t.origin).step.toNat ≤ 2 ^ 28) ∧
      (t.origin = s.origin.other ↔ ((s.grain s.origin).phase - (s.grain s.origin).step).toInt ≤ 2 ^ 27)

/-- 45_grain_engine R97 item 4: the predecessor is Inactive when it is respawned. -/
def Obligations.PredecessorIsInactiveWhenRespawned : Prop :=
  ∀ s : State, s.Inv →
    ((s.grain s.origin).phase - (s.grain s.origin).step).toInt ≤ 2 ^ 27 →
    ((s.grain s.origin.other).phase - (s.grain s.origin.other).step).toInt ≤ 0

/-- 45_grain_engine R97 item 5: the advance of R92 never wraps a phase, which stays above -2 * ONE, nor a counter, which stays at
most MAX_GRAIN_SIZE / 2 + 1. -/
def Obligations.AdvanceNeverWraps : Prop :=
  ∀ (s : State) (g : Slot), s.Inv →
    ((s.grain g).phase - (s.grain g).step).toInt = (s.grain g).phase.toInt - ((s.grain g).step.toNat : Int) ∧
    -(2 * 2 ^ 28 : Int) < ((s.grain g).phase - (s.grain g).step).toInt ∧
    ((s.grain g).counter + 1).toNat = (s.grain g).counter.toNat + 1 ∧
    (s.grain g).counter.toNat + 1 ≤ s.cfg.maxGrainSize / 2 + 1

/-- 45_grain_engine R96: while a slot is Active, twice its counter is at most the sum of the two slots' lengths, and so at most
MAX_GRAIN_SIZE, below CAP_IN; where ticks of one PUSH and then one UPDATE have kept the read ages at `2 * COUNTER`, the sample it reads
is of that age, at most MAX_GRAIN_SIZE. -/
def Obligations.ActiveGrainReadsStayInTheHistory : Prop :=
  ∀ (s : State) (g : Slot), s.Inv → (s.grain g).active = true →
    2 * (s.grain g).counter.toNat ≤ s.grain0.length.toNat + s.grain1.length.toNat ∧
    2 * (s.grain g).counter.toNat ≤ s.cfg.maxGrainSize ∧ s.cfg.maxGrainSize < s.cfg.capIn ∧
    (s.TickAges → s.readAge g = 2 * ((s.grain g).counter.toNat : Int) ∧ s.readAge g ≤ s.cfg.maxGrainSize)

/-- 45_grain_engine R96: a tick, one PUSH and then one UPDATE, moves every slot it does not respawn two samples further into the
past, starts a spawned slot at the newest sample, and keeps every Active slot's age at `2 * COUNTER`. -/
def Obligations.TickPlaysTheHistoryBackwards : Prop :=
  ∀ (s : State) (a b r : Word), s.Inv → s.initDone = true →
    ∃ t : State, execAll [.push a b, .update r] s = .next t ∧
      (∀ g : Slot, (g ≠ t.origin ∨ t.origin = s.origin) →
        t.readAge g = (s.readAge g + 2) % (s.cfg.capIn : Int)) ∧
      (t.origin ≠ s.origin → t.readAge t.origin = 0) ∧
      (s.TickAges → t.TickAges)

/-! ## DOUT -/

/-- 44_fractional_delay R84-R87: DOUT's result is the inner product of TAPS elements of FB with the selected coefficient set,
wrapped at 64 bits, shifted and wrapped at 32; the memory reads are tap 0's first, and nothing but the response and the ports'
traces changes (the coefficient port's trace is the model's own, log entry 10). Before INIT it faults with cause 1. -/
def Obligations.DoutIsTheInnerProduct : Prop :=
  ∀ s : State,
    (s.initDone = true → basesOk s.cfg s.baseIn.toNat s.baseFb.toNat = true →
      let sel := BitVec.ofNat 8 (s.eff.toNat % 2 ^ 8 / 2 ^ (8 - s.cfg.bankLog2))
      let base : Int := (s.wpFb : Int) - (s.cfg.taps / 2 : Nat) + (s.eff.toNat / 2 ^ 8 : Nat)
      let acc : Int := ∑ j ∈ Finset.range s.cfg.taps,
        (s.ringWord .fb (base + j)).toInt * (coefPort s.cfg sel (BitVec.ofNat 6 j)).toInt
      ∃ coefReads : List CoefRead,
        exec .dout s = .next
          { s with
            bus := s.bus ++ (List.range s.cfg.taps).map fun (j : Nat) =>
              .read (ringAddr s .fb (base + j)) (s.ringWord .fb (base + j))
            coefReads := coefReads
            responses := s.responses ++
              [⟨false, BitVec.ofInt 32 ((BitVec.ofInt 64 acc).toInt / ((2 ^ s.cfg.coefFrac : Nat) : Int))⟩] }) ∧
    (s.initDone = false →
      exec .dout s = .next { s with status := s.status ||| 2, responses := s.responses ++ [⟨true, 1⟩] })

/-- 44_fractional_delay R84: in an accepted configuration the selector names one of the bank's sets: the top BANK_LOG2 fraction
bits of EFF. -/
def Obligations.SelectorNamesASetOfTheBank : Prop :=
  ∀ (c : Config) (eff : Word), c.Accepted →
    (firSelector c eff).toNat = (eff.toNat % 2 ^ 8) / 2 ^ (8 - c.bankLog2) ∧
    (firSelector c eff).toNat < 2 ^ c.bankLog2 ∧ (firSelector c eff).toNat < c.coef.length

/-- 44_fractional_delay R88: tap `j` reads the FB element of age `(EFF >> 8) - TAPS/2 + j`, and every age lies within the ring. -/
def Obligations.TapAgesStayInTheRing : Prop :=
  ∀ (s : State) (j : Nat), s.Inv → j < s.cfg.taps →
    let age : Int := (s.eff.toNat / 2 ^ 8 : Nat) - (s.cfg.taps / 2 : Nat) + j
    ringIdx s.cfg .fb (firBase s + j) = ringIdx s.cfg .fb ((s.wpFb : Int) + age) ∧
    (s.cfg.minGrainSize : Int) - (s.cfg.taps / 2 : Nat) ≤ age ∧
    age ≤ (s.cfg.maxGrainSize : Int) + (s.cfg.taps / 2 : Nat) - 1 ∧
    0 ≤ age ∧ age ≤ (s.cfg.capFb : Int) - 1

/-- 44_fractional_delay R89: where the elements read all hold `x` and the selected set sums to unity, DOUT returns `x`. R89 says
that the final sum fits in 64 bits: the premise on `x * 2^COEF_FRAC` states it, since R6 admits a COEF_FRAC for which it does not. -/
def Obligations.DoutOfAConstantIsTheConstant : Prop :=
  ∀ (s : State) (x : Word), s.initDone = true → basesOk s.cfg s.baseIn.toNat s.baseFb.toNat = true →
    (∀ j : Nat, j < s.cfg.taps → s.ringWord .fb (firBase s + j) = x) →
    (∑ j ∈ Finset.range s.cfg.taps,
      (coefPort s.cfg (firSelector s.cfg s.eff) (BitVec.ofNat 6 j)).toInt) = ((2 ^ s.cfg.coefFrac : Nat) : Int) →
    -(2 ^ 63 : Int) ≤ x.toInt * ((2 ^ s.cfg.coefFrac : Nat) : Int) →
    x.toInt * ((2 ^ s.cfg.coefFrac : Nat) : Int) < 2 ^ 63 →
    ∃ t : State, exec .dout s = .next t ∧ t.responses = s.responses ++ [⟨false, x⟩]

/-! ## ROUT and the window -/

/-- 45_grain_engine R94, R95: ROUT's result is the 32-bit sum of the Active slots' contributions, each the sample read times the
window value; nothing but the response and the memory port's trace changes. Before INIT it faults with cause 1. -/
def Obligations.RoutSumsTheActiveGrains : Prop :=
  ∀ s : State,
    (s.initDone = true → basesOk s.cfg s.baseIn.toNat s.baseFb.toNat = true →
      let contribution (g : Grain) : Word :=
        if 0 < g.phase.toInt then
          BitVec.ofInt 32
            ((s.ringWord .inp ((g.readStart : Int) + (g.counter.toNat : Int))).toInt *
              ((window s.cfg (BitVec.ofInt 28 (2 ^ 28 - g.phase.toInt))).toInt * 4) / 2 ^ 16)
        else 0
      let reads (g : Grain) : List BusAccess :=
        if 0 < g.phase.toInt then
          [.read (ringAddr s .inp ((g.readStart : Int) + (g.counter.toNat : Int)))
            (s.ringWord .inp ((g.readStart : Int) + (g.counter.toNat : Int)))]
        else []
      exec .rout s = .next
        { s with
          bus := s.bus ++ reads s.grain0 ++ reads s.grain1
          responses := s.responses ++ [⟨false, contribution s.grain0 + contribution s.grain1⟩] }) ∧
    (s.initDone = false →
      exec .rout s = .next { s with status := s.status ||| 2, responses := s.responses ++ [⟨true, 1⟩] })

/-- 46_window_lut R100: the window is the linear interpolation, floored, between entry `i` and the next, which is entry 0 after
entry 63, and lies between the two. -/
def Obligations.WindowInterpolatesAdjacentEntries : Prop :=
  ∀ (c : Config) (i : Fin 64) (fr : Nat), fr < 2 ^ 22 →
    let x := (c.win.get i).toInt
    let y := (c.win.get (i + 1)).toInt
    let w := (window c (BitVec.ofNat 28 (i.val * 2 ^ 22 + fr))).toInt
    w = x + (y - x) * fr / 2 ^ 22 ∧ min x y ≤ w ∧ w ≤ max x y

/-- 46_window_lut R101: a table whose opposite entries sum to 16384 gives windows half a period apart that sum to 16384 or
16383. -/
def Obligations.WindowHalvesSumToOne : Prop :=
  ∀ c : Config, (∀ i : Fin 64, (c.win.get i).toInt + (c.win.get (i + 32)).toInt = 16384) →
    ∀ t : Nat, t < 2 ^ 27 →
      let sum := (window c (BitVec.ofNat 28 t)).toInt + (window c (BitVec.ofNat 28 (t + 2 ^ 27))).toInt
      sum = 16384 ∨ sum = 16383

/-- 46_window_lut R101: a symmetric table gives a symmetric window, exactly. -/
def Obligations.WindowIsSymmetric : Prop :=
  ∀ c : Config, (∀ i : Fin 64, c.win.get i = c.win.get (-i)) →
    ∀ t : Nat, 0 < t → t < 2 ^ 28 → window c (BitVec.ofNat 28 t) = window c (BitVec.ofNat 28 (2 ^ 28 - t))

/-- 46_window_lut R101, R102: the default table has both properties; its window lies in 0..16384, is 16384 only at one half, and
0 exactly near the ends. -/
def Obligations.DefaultWindowPeaksAtOneHalf : Prop :=
  ∀ c : Config, c.win = hannTable →
    (∀ i : Fin 64, c.win.get i = c.win.get (-i) ∧ (c.win.get i).toInt + (c.win.get (i + 32)).toInt = 16384) ∧
    ∀ t : Nat, t < 2 ^ 28 →
      let w := (window c (BitVec.ofNat 28 t)).toInt
      0 ≤ w ∧ w ≤ 16384 ∧ (w = 16384 ↔ t = 2 ^ 27) ∧ (w = 0 ↔ t ≤ 107546 ∨ 2 ^ 28 - 107546 ≤ t)

/-- 45_grain_engine R98: for a table with entries in 0..16384, ROUT is at most twice the largest sample read plus 2, in
magnitude. -/
def Obligations.RoutStaysBounded : Prop :=
  ∀ (s : State) (M : Nat), s.initDone = true → basesOk s.cfg s.baseIn.toNat s.baseFb.toNat = true →
    (∀ i : Fin 64, 0 ≤ (s.cfg.win.get i).toInt ∧ (s.cfg.win.get i).toInt ≤ 16384) →
    (∀ g : Slot, (s.grain g).active = true →
      (s.ringWord .inp (grainReadIndex (s.grain g))).toInt.natAbs ≤ M) →
    ∃ (t : State) (y : Word), exec .rout s = .next t ∧ t.responses = s.responses ++ [⟨false, y⟩] ∧
      y.toInt.natAbs ≤ 2 * M + 2

/-- 45_grain_engine R98: with both slots Active, their phases exactly THRESH apart, and a table whose opposite entries sum to 16384,
a constant input `x` gives a ROUT within 2 LSBs below `x * W / 16384`, W being 16384 or 16383. -/
def Obligations.OverlapAddIsFlat : Prop :=
  ∀ (s : State) (x : Word), s.initDone = true → basesOk s.cfg s.baseIn.toNat s.baseFb.toNat = true →
    (∀ i : Fin 64, (s.cfg.win.get i).toInt + (s.cfg.win.get (i + 32)).toInt = 16384) →
    (∀ g : Slot, 0 < (s.grain g).phase.toInt ∧ (s.grain g).phase.toInt ≤ 2 ^ 28 ∧
      s.ringWord .inp (grainReadIndex (s.grain g)) = x) →
    (s.grain0.phase.toInt = s.grain1.phase.toInt + 2 ^ 27 ∨ s.grain1.phase.toInt = s.grain0.phase.toInt + 2 ^ 27) →
    ∃ (t : State) (y : Word) (W : Int), exec .rout s = .next t ∧ t.responses = s.responses ++ [⟨false, y⟩] ∧
      (W = 16384 ∨ W = 16383) ∧ x.toInt * W - 2 * 16384 < y.toInt * 16384 ∧ y.toInt * 16384 ≤ x.toInt * W

/-! ## The assembler -/

/-- 30_encoding R56: TICK is PUSH and UPDATE, TICKIO adds DOUT and ROUT, each in that order, for operands that have a pattern;
HOLD is UPDATE 0, which keeps the target in an accepted configuration. -/
def Obligations.PseudoInstructionsExpandInOrder : Prop :=
  (∀ (x y l : AsmOperand) (a b r : Word), asmPattern x = .ok a → asmPattern y = .ok b → asmPattern l = .ok r →
    assemble (.tick x y l) = .ok [.push a b, .update r] ∧
    assemble (.tickio x y l) = .ok [.push a b, .update r, .dout, .rout]) ∧
  assemble .hold = .ok [.update 0] ∧
  ∀ s : State, s.cfg.Accepted → s.initDone = true →
    ∃ t : State, exec (.update 0) s = .next t ∧ t.target = s.target

/-! ## Abandoned output commands -/

/-- 10_state R26, 60_exceptions R117, 70_reset_and_hazards R119: a DOUT or ROUT abandoned after `acks` of its memory reads were
acknowledged gives no response and writes nothing; the reads it completed, the first of R39's, were seen on the port. The form of
the host's move and the trace of coefficient reads are the model's choice (log entries 7 and 10). -/
def Obligations.AbandonedOutputLeavesItsReadsOnThePort : Prop :=
  ∀ (s : State) (i : Instr) (acks coefs : Nat) (torn : Option Word) (rest : List HostMove),
    s.cfg.Accepted → s.busy = false → s.initDone = true →
    basesOk s.cfg s.baseIn.toNat s.baseFb.toNat = true →
    (i = .dout ∨ i = .rout) →
    s.host = .beginBeat (encode i) acks coefs torn :: .powerOnReset :: rest →
    let tapReads : List BusAccess :=
      (List.range s.cfg.taps).map fun (j : Nat) => .read (ringAddr s .fb (firBase s + j)) (s.ringWord .fb (firBase s + j))
    let grainReads (g : Grain) : List BusAccess :=
      if 0 < g.phase.toInt then
        [.read (ringAddr s .inp (grainReadIndex g)) (s.ringWord .inp (grainReadIndex g))]
      else []
    ∃ t u : State, step s = .next t ∧ t.busy = true ∧ step t = .next u ∧ u.busy = false ∧
      u.mem = s.mem ∧ u.responses = s.responses ∧ u.status = 0 ∧
      (i = .dout → u.bus = s.bus ++ tapReads.take acks ∧
        u.coefReads = s.coefReads ++
          ((List.range s.cfg.taps).map fun (j : Nat) => CoefRead.mk (firSelector s.cfg s.eff) (BitVec.ofNat 6 j)).take coefs) ∧
      (i = .rout → u.bus = s.bus ++ (grainReads s.grain0 ++ grainReads s.grain1).take acks ∧ u.coefReads = s.coefReads)
end

