-- ==== Sys2Proof/Laws/State.lean ====
section
/-! SUPPORT. What each update of the state does to each field, true by unfolding, for simp. -/

namespace Sys2Proof.Machine

/-! A response -/

@[simp] theorem respond_cfg (e : Bool) (d : Word) (s : State) : (respond e d s).cfg = s.cfg := rfl
@[simp] theorem respond_status (e : Bool) (d : Word) (s : State) : (respond e d s).status = s.status := rfl
@[simp] theorem respond_baseIn (e : Bool) (d : Word) (s : State) : (respond e d s).baseIn = s.baseIn := rfl
@[simp] theorem respond_baseFb (e : Bool) (d : Word) (s : State) : (respond e d s).baseFb = s.baseFb := rfl
@[simp] theorem respond_wpIn (e : Bool) (d : Word) (s : State) : (respond e d s).wpIn = s.wpIn := rfl
@[simp] theorem respond_wpFb (e : Bool) (d : Word) (s : State) : (respond e d s).wpFb = s.wpFb := rfl
@[simp] theorem respond_target (e : Bool) (d : Word) (s : State) : (respond e d s).target = s.target := rfl
@[simp] theorem respond_eff (e : Bool) (d : Word) (s : State) : (respond e d s).eff = s.eff := rfl
@[simp] theorem respond_origin (e : Bool) (d : Word) (s : State) : (respond e d s).origin = s.origin := rfl
@[simp] theorem respond_grain0 (e : Bool) (d : Word) (s : State) : (respond e d s).grain0 = s.grain0 := rfl
@[simp] theorem respond_grain1 (e : Bool) (d : Word) (s : State) : (respond e d s).grain1 = s.grain1 := rfl
@[simp] theorem respond_busy (e : Bool) (d : Word) (s : State) : (respond e d s).busy = s.busy := rfl
@[simp] theorem respond_mem (e : Bool) (d : Word) (s : State) : (respond e d s).mem = s.mem := rfl
@[simp] theorem respond_host (e : Bool) (d : Word) (s : State) : (respond e d s).host = s.host := rfl
@[simp] theorem respond_responses (e : Bool) (d : Word) (s : State) : (respond e d s).responses = s.responses ++ [⟨e, d⟩] := rfl
@[simp] theorem respond_bus (e : Bool) (d : Word) (s : State) : (respond e d s).bus = s.bus := rfl
@[simp] theorem respond_coefReads (e : Bool) (d : Word) (s : State) : (respond e d s).coefReads = s.coefReads := rfl

/-! Taking a fault -/

@[simp] theorem raiseFault_cfg (c : Cause) (s : State) : (raiseFault c s).cfg = s.cfg := rfl
@[simp] theorem raiseFault_status (c : Cause) (s : State) : (raiseFault c s).status = setStatusBit s.status c.code := rfl
@[simp] theorem raiseFault_baseIn (c : Cause) (s : State) : (raiseFault c s).baseIn = s.baseIn := rfl
@[simp] theorem raiseFault_baseFb (c : Cause) (s : State) : (raiseFault c s).baseFb = s.baseFb := rfl
@[simp] theorem raiseFault_wpIn (c : Cause) (s : State) : (raiseFault c s).wpIn = s.wpIn := rfl
@[simp] theorem raiseFault_wpFb (c : Cause) (s : State) : (raiseFault c s).wpFb = s.wpFb := rfl
@[simp] theorem raiseFault_target (c : Cause) (s : State) : (raiseFault c s).target = s.target := rfl
@[simp] theorem raiseFault_eff (c : Cause) (s : State) : (raiseFault c s).eff = s.eff := rfl
@[simp] theorem raiseFault_origin (c : Cause) (s : State) : (raiseFault c s).origin = s.origin := rfl
@[simp] theorem raiseFault_grain0 (c : Cause) (s : State) : (raiseFault c s).grain0 = s.grain0 := rfl
@[simp] theorem raiseFault_grain1 (c : Cause) (s : State) : (raiseFault c s).grain1 = s.grain1 := rfl
@[simp] theorem raiseFault_busy (c : Cause) (s : State) : (raiseFault c s).busy = s.busy := rfl
@[simp] theorem raiseFault_mem (c : Cause) (s : State) : (raiseFault c s).mem = s.mem := rfl
@[simp] theorem raiseFault_host (c : Cause) (s : State) : (raiseFault c s).host = s.host := rfl
@[simp] theorem raiseFault_responses (c : Cause) (s : State) : (raiseFault c s).responses = s.responses ++ [⟨true, BitVec.ofNat 32 c.code⟩] := rfl
@[simp] theorem raiseFault_bus (c : Cause) (s : State) : (raiseFault c s).bus = s.bus := rfl
@[simp] theorem raiseFault_coefReads (c : Cause) (s : State) : (raiseFault c s).coefReads = s.coefReads := rfl

/-! RESET's assignments -/

@[simp] theorem resetEngine_cfg (s : State) : (resetEngine s).cfg = s.cfg := rfl
@[simp] theorem resetEngine_status (s : State) : (resetEngine s).status = s.status := rfl
@[simp] theorem resetEngine_baseIn (s : State) : (resetEngine s).baseIn = s.baseIn := rfl
@[simp] theorem resetEngine_baseFb (s : State) : (resetEngine s).baseFb = s.baseFb := rfl
@[simp] theorem resetEngine_wpIn (s : State) : (resetEngine s).wpIn = s.wpIn := rfl
@[simp] theorem resetEngine_wpFb (s : State) : (resetEngine s).wpFb = s.wpFb := rfl
@[simp] theorem resetEngine_target (s : State) : (resetEngine s).target = BitVec.ofNat 32 s.cfg.resetTarget := rfl
@[simp] theorem resetEngine_eff (s : State) : (resetEngine s).eff = BitVec.ofNat 32 (s.cfg.resetTarget * 2 ^ 8) := rfl
@[simp] theorem resetEngine_origin (s : State) : (resetEngine s).origin = .zero := rfl
@[simp] theorem resetEngine_grain0 (s : State) : (resetEngine s).grain0 = .cleared := rfl
@[simp] theorem resetEngine_grain1 (s : State) : (resetEngine s).grain1 = .cleared := rfl
@[simp] theorem resetEngine_busy (s : State) : (resetEngine s).busy = s.busy := rfl
@[simp] theorem resetEngine_mem (s : State) : (resetEngine s).mem = s.mem := rfl
@[simp] theorem resetEngine_host (s : State) : (resetEngine s).host = s.host := rfl
@[simp] theorem resetEngine_responses (s : State) : (resetEngine s).responses = s.responses := rfl
@[simp] theorem resetEngine_bus (s : State) : (resetEngine s).bus = s.bus := rfl
@[simp] theorem resetEngine_coefReads (s : State) : (resetEngine s).coefReads = s.coefReads := rfl

/-! Target update and smoothing -/

@[simp] theorem smooth_cfg (a : Word) (s : State) : (smooth a s).cfg = s.cfg := rfl
@[simp] theorem smooth_status (a : Word) (s : State) : (smooth a s).status = s.status := rfl
@[simp] theorem smooth_baseIn (a : Word) (s : State) : (smooth a s).baseIn = s.baseIn := rfl
@[simp] theorem smooth_baseFb (a : Word) (s : State) : (smooth a s).baseFb = s.baseFb := rfl
@[simp] theorem smooth_wpIn (a : Word) (s : State) : (smooth a s).wpIn = s.wpIn := rfl
@[simp] theorem smooth_wpFb (a : Word) (s : State) : (smooth a s).wpFb = s.wpFb := rfl
@[simp] theorem smooth_target (a : Word) (s : State) : (smooth a s).target = newTarget s.cfg s.target a := rfl
@[simp] theorem smooth_eff (a : Word) (s : State) : (smooth a s).eff = newEff s.cfg (newTarget s.cfg s.target a) s.eff := rfl
@[simp] theorem smooth_origin (a : Word) (s : State) : (smooth a s).origin = s.origin := rfl
@[simp] theorem smooth_grain0 (a : Word) (s : State) : (smooth a s).grain0 = s.grain0 := rfl
@[simp] theorem smooth_grain1 (a : Word) (s : State) : (smooth a s).grain1 = s.grain1 := rfl
@[simp] theorem smooth_busy (a : Word) (s : State) : (smooth a s).busy = s.busy := rfl
@[simp] theorem smooth_mem (a : Word) (s : State) : (smooth a s).mem = s.mem := rfl
@[simp] theorem smooth_host (a : Word) (s : State) : (smooth a s).host = s.host := rfl
@[simp] theorem smooth_responses (a : Word) (s : State) : (smooth a s).responses = s.responses := rfl
@[simp] theorem smooth_bus (a : Word) (s : State) : (smooth a s).bus = s.bus := rfl
@[simp] theorem smooth_coefReads (a : Word) (s : State) : (smooth a s).coefReads = s.coefReads := rfl

/-! Advance -/

@[simp] theorem grainAdvance_cfg (s : State) : (grainAdvance s).cfg = s.cfg := rfl
@[simp] theorem grainAdvance_status (s : State) : (grainAdvance s).status = s.status := rfl
@[simp] theorem grainAdvance_baseIn (s : State) : (grainAdvance s).baseIn = s.baseIn := rfl
@[simp] theorem grainAdvance_baseFb (s : State) : (grainAdvance s).baseFb = s.baseFb := rfl
@[simp] theorem grainAdvance_wpIn (s : State) : (grainAdvance s).wpIn = s.wpIn := rfl
@[simp] theorem grainAdvance_wpFb (s : State) : (grainAdvance s).wpFb = s.wpFb := rfl
@[simp] theorem grainAdvance_target (s : State) : (grainAdvance s).target = s.target := rfl
@[simp] theorem grainAdvance_eff (s : State) : (grainAdvance s).eff = s.eff := rfl
@[simp] theorem grainAdvance_origin (s : State) : (grainAdvance s).origin = s.origin := rfl
@[simp] theorem grainAdvance_grain0 (s : State) : (grainAdvance s).grain0 = s.grain0.advance := rfl
@[simp] theorem grainAdvance_grain1 (s : State) : (grainAdvance s).grain1 = s.grain1.advance := rfl
@[simp] theorem grainAdvance_busy (s : State) : (grainAdvance s).busy = s.busy := rfl
@[simp] theorem grainAdvance_mem (s : State) : (grainAdvance s).mem = s.mem := rfl
@[simp] theorem grainAdvance_host (s : State) : (grainAdvance s).host = s.host := rfl
@[simp] theorem grainAdvance_responses (s : State) : (grainAdvance s).responses = s.responses := rfl
@[simp] theorem grainAdvance_bus (s : State) : (grainAdvance s).bus = s.bus := rfl
@[simp] theorem grainAdvance_coefReads (s : State) : (grainAdvance s).coefReads = s.coefReads := rfl

/-! Power-on reset -/

@[simp] theorem powerOnReset_cfg (s : State) : (powerOnReset s).cfg = s.cfg := rfl
@[simp] theorem powerOnReset_status (s : State) : (powerOnReset s).status = 0 := rfl
@[simp] theorem powerOnReset_baseIn (s : State) : (powerOnReset s).baseIn = 0 := rfl
@[simp] theorem powerOnReset_baseFb (s : State) : (powerOnReset s).baseFb = 0 := rfl
@[simp] theorem powerOnReset_wpIn (s : State) : (powerOnReset s).wpIn = 0 := rfl
@[simp] theorem powerOnReset_wpFb (s : State) : (powerOnReset s).wpFb = 0 := rfl
@[simp] theorem powerOnReset_target (s : State) : (powerOnReset s).target = BitVec.ofNat 32 s.cfg.resetTarget := rfl
@[simp] theorem powerOnReset_eff (s : State) : (powerOnReset s).eff = BitVec.ofNat 32 (s.cfg.resetTarget * 2 ^ 8) := rfl
@[simp] theorem powerOnReset_origin (s : State) : (powerOnReset s).origin = .zero := rfl
@[simp] theorem powerOnReset_grain0 (s : State) : (powerOnReset s).grain0 = .cleared := rfl
@[simp] theorem powerOnReset_grain1 (s : State) : (powerOnReset s).grain1 = .cleared := rfl
@[simp] theorem powerOnReset_busy (s : State) : (powerOnReset s).busy = false := rfl
@[simp] theorem powerOnReset_mem (s : State) : (powerOnReset s).mem = s.mem := rfl
@[simp] theorem powerOnReset_host (s : State) : (powerOnReset s).host = s.host := rfl
@[simp] theorem powerOnReset_responses (s : State) : (powerOnReset s).responses = s.responses := rfl
@[simp] theorem powerOnReset_bus (s : State) : (powerOnReset s).bus = s.bus := rfl
@[simp] theorem powerOnReset_coefReads (s : State) : (powerOnReset s).coefReads = s.coefReads := rfl

/-! Writing a grain slot -/

@[simp] theorem setGrain_cfg (s : State) (g : Slot) (x : Grain) : (s.setGrain g x).cfg = s.cfg := by cases g <;> rfl
@[simp] theorem setGrain_status (s : State) (g : Slot) (x : Grain) : (s.setGrain g x).status = s.status := by cases g <;> rfl
@[simp] theorem setGrain_baseIn (s : State) (g : Slot) (x : Grain) : (s.setGrain g x).baseIn = s.baseIn := by cases g <;> rfl
@[simp] theorem setGrain_baseFb (s : State) (g : Slot) (x : Grain) : (s.setGrain g x).baseFb = s.baseFb := by cases g <;> rfl
@[simp] theorem setGrain_wpIn (s : State) (g : Slot) (x : Grain) : (s.setGrain g x).wpIn = s.wpIn := by cases g <;> rfl
@[simp] theorem setGrain_wpFb (s : State) (g : Slot) (x : Grain) : (s.setGrain g x).wpFb = s.wpFb := by cases g <;> rfl
@[simp] theorem setGrain_target (s : State) (g : Slot) (x : Grain) : (s.setGrain g x).target = s.target := by cases g <;> rfl
@[simp] theorem setGrain_eff (s : State) (g : Slot) (x : Grain) : (s.setGrain g x).eff = s.eff := by cases g <;> rfl
@[simp] theorem setGrain_origin (s : State) (g : Slot) (x : Grain) : (s.setGrain g x).origin = s.origin := by cases g <;> rfl
@[simp] theorem setGrain_busy (s : State) (g : Slot) (x : Grain) : (s.setGrain g x).busy = s.busy := by cases g <;> rfl
@[simp] theorem setGrain_mem (s : State) (g : Slot) (x : Grain) : (s.setGrain g x).mem = s.mem := by cases g <;> rfl
@[simp] theorem setGrain_host (s : State) (g : Slot) (x : Grain) : (s.setGrain g x).host = s.host := by cases g <;> rfl
@[simp] theorem setGrain_responses (s : State) (g : Slot) (x : Grain) : (s.setGrain g x).responses = s.responses := by cases g <;> rfl
@[simp] theorem setGrain_bus (s : State) (g : Slot) (x : Grain) : (s.setGrain g x).bus = s.bus := by cases g <;> rfl
@[simp] theorem setGrain_coefReads (s : State) (g : Slot) (x : Grain) : (s.setGrain g x).coefReads = s.coefReads := by cases g <;> rfl

@[simp] theorem setGrain_grain_same (s : State) (g : Slot) (x : Grain) : (s.setGrain g x).grain g = x := by
  cases g <;> rfl

@[simp] theorem setGrain_grain_other (s : State) (g : Slot) (x : Grain) :
    (s.setGrain g x).grain g.other = s.grain g.other := by cases g <;> rfl

@[simp] theorem slot_other_other (g : Slot) : g.other.other = g := by cases g <;> rfl

theorem slot_other_ne (g : Slot) : g.other ≠ g := by cases g <;> decide

/-! One slot's advance -/

@[simp] theorem advance_phase (g : Grain) : g.advance.phase = g.phase - g.step := rfl
@[simp] theorem advance_step (g : Grain) : g.advance.step = g.step := rfl
@[simp] theorem advance_counter (g : Grain) : g.advance.counter = g.counter + 1 := rfl
@[simp] theorem advance_readStart (g : Grain) : g.advance.readStart = g.readStart := rfl
@[simp] theorem advance_length (g : Grain) : g.advance.length = g.length := rfl

@[simp] theorem grainAdvance_grain (s : State) (g : Slot) : (grainAdvance s).grain g = (s.grain g).advance := by
  cases g <;> rfl

@[simp] theorem smooth_grain (a : Word) (s : State) (g : Slot) : (smooth a s).grain g = s.grain g := by
  cases g <;> rfl

/-! The spawn and the trigger -/

@[simp] theorem spawn_cfg (s : State) : (spawn s).cfg = s.cfg := by simp [spawn]
@[simp] theorem grainTrigger_cfg (s : State) : (grainTrigger s).cfg = s.cfg := by unfold grainTrigger; split <;> simp
@[simp] theorem spawn_status (s : State) : (spawn s).status = s.status := by simp [spawn]
@[simp] theorem grainTrigger_status (s : State) : (grainTrigger s).status = s.status := by unfold grainTrigger; split <;> simp
@[simp] theorem spawn_baseIn (s : State) : (spawn s).baseIn = s.baseIn := by simp [spawn]
@[simp] theorem grainTrigger_baseIn (s : State) : (grainTrigger s).baseIn = s.baseIn := by unfold grainTrigger; split <;> simp
@[simp] theorem spawn_baseFb (s : State) : (spawn s).baseFb = s.baseFb := by simp [spawn]
@[simp] theorem grainTrigger_baseFb (s : State) : (grainTrigger s).baseFb = s.baseFb := by unfold grainTrigger; split <;> simp
@[simp] theorem spawn_wpIn (s : State) : (spawn s).wpIn = s.wpIn := by simp [spawn]
@[simp] theorem grainTrigger_wpIn (s : State) : (grainTrigger s).wpIn = s.wpIn := by unfold grainTrigger; split <;> simp
@[simp] theorem spawn_wpFb (s : State) : (spawn s).wpFb = s.wpFb := by simp [spawn]
@[simp] theorem grainTrigger_wpFb (s : State) : (grainTrigger s).wpFb = s.wpFb := by unfold grainTrigger; split <;> simp
@[simp] theorem spawn_target (s : State) : (spawn s).target = s.target := by simp [spawn]
@[simp] theorem grainTrigger_target (s : State) : (grainTrigger s).target = s.target := by unfold grainTrigger; split <;> simp
@[simp] theorem spawn_eff (s : State) : (spawn s).eff = s.eff := by simp [spawn]
@[simp] theorem grainTrigger_eff (s : State) : (grainTrigger s).eff = s.eff := by unfold grainTrigger; split <;> simp
@[simp] theorem spawn_busy (s : State) : (spawn s).busy = s.busy := by simp [spawn]
@[simp] theorem grainTrigger_busy (s : State) : (grainTrigger s).busy = s.busy := by unfold grainTrigger; split <;> simp
@[simp] theorem spawn_mem (s : State) : (spawn s).mem = s.mem := by simp [spawn]
@[simp] theorem grainTrigger_mem (s : State) : (grainTrigger s).mem = s.mem := by unfold grainTrigger; split <;> simp
@[simp] theorem spawn_host (s : State) : (spawn s).host = s.host := by simp [spawn]
@[simp] theorem grainTrigger_host (s : State) : (grainTrigger s).host = s.host := by unfold grainTrigger; split <;> simp
@[simp] theorem spawn_responses (s : State) : (spawn s).responses = s.responses := by simp [spawn]
@[simp] theorem grainTrigger_responses (s : State) : (grainTrigger s).responses = s.responses := by unfold grainTrigger; split <;> simp
@[simp] theorem spawn_bus (s : State) : (spawn s).bus = s.bus := by simp [spawn]
@[simp] theorem grainTrigger_bus (s : State) : (grainTrigger s).bus = s.bus := by unfold grainTrigger; split <;> simp
@[simp] theorem spawn_coefReads (s : State) : (spawn s).coefReads = s.coefReads := by simp [spawn]
@[simp] theorem grainTrigger_coefReads (s : State) : (grainTrigger s).coefReads = s.coefReads := by unfold grainTrigger; split <;> simp

@[simp] theorem spawn_origin (s : State) : (spawn s).origin = s.origin.other := by simp [spawn]

/-- The spawned slot. -/
@[simp] theorem spawn_grain_origin (s : State) : (spawn s).grain s.origin.other = spawnedGrain s := by simp [spawn]

/-- The old origin keeps all but its step. -/
@[simp] theorem spawn_grain_predecessor (s : State) :
    (spawn s).grain s.origin = { s.grain s.origin with step := BitVec.ofNat 32 (grainStep (grainLen s.eff)) } := by
  unfold spawn
  cases h : s.origin <;> simp [Slot.other, State.setGrain, State.grain]

/-! INIT_DONE is bit 0 of STATUS, whatever else changes -/

@[simp] theorem respond_initDone (e : Bool) (d : Word) (s : State) : (respond e d s).initDone = s.initDone := rfl

@[simp] theorem raiseFault_initDone (c : Cause) (s : State) : (raiseFault c s).initDone = s.initDone := by
  cases c <;> simp [State.initDone, setStatusBit, Cause.code]

@[simp] theorem setStatusBit_zero_initDone (st : BitVec 8) : (setStatusBit st 0).getLsbD 0 = true := by
  simp [setStatusBit]

end Sys2Proof.Machine
end

