-- ==== Sys2Proof/Laws/Memory.lean ====
section
/-! SUPPORT. The laws of the memory: read after write, and that every memory operation keeps the canonical form. -/

namespace Sys2Proof.Machine

/-- An address below every listed one reads as unlisted. -/
theorem byte_of_lt_all {m : Memory} {x : Nat} (h : ∀ cell ∈ m, x < cell.1) : m.byte x = unlistedByte := by
  induction m with
  | nil => rfl
  | cons c rest ih =>
    obtain ⟨k, w⟩ := c
    have hk : x < k := h (k, w) (by simp)
    simp only [Memory.byte, if_neg (by omega : ¬ k = x)]
    exact ih fun cell hc => h cell (by simp [hc])

/-- Listing a byte in front of memory that starts above its address. -/
theorem byte_listed {rest : Memory} {addr : Nat} (v : Byte) (h : ∀ cell ∈ rest, addr < cell.1) (x : Nat) :
    (Memory.listed addr v rest).byte x = if x = addr then v else rest.byte x := by
  unfold Memory.listed
  by_cases hv : v = unlistedByte
  · by_cases hx : x = addr
    · subst hx; simp [hv, byte_of_lt_all h]
    · simp [hv, hx]
  · by_cases hx : x = addr
    · subst hx; simp [hv, Memory.byte]
    · simp [hv, hx, Memory.byte, Ne.symm hx]

/-- Read after write, in a memory whose addresses rise. -/
theorem byte_setByte {m : Memory} (hm : m.Pairwise fun x y => x.1 < y.1) (addr : Nat) (v : Byte) (x : Nat) :
    (m.setByte addr v).byte x = if x = addr then v else m.byte x := by
  induction m with
  | nil => exact byte_listed v (by simp) x
  | cons c rest ih =>
    obtain ⟨k, w⟩ := c
    have hr := List.pairwise_cons.mp hm
    simp only [Memory.setByte]
    split
    · rename_i hlt
      refine byte_listed v ?_ x
      intro cell hc
      rcases List.mem_cons.mp hc with rfl | hc
      · exact hlt
      · exact hlt.trans (hr.1 cell hc)
    · split
      · rename_i heq
        subst heq
        rw [byte_listed v hr.1 x]
        by_cases hx : x = addr
        · simp [hx]
        · simp [hx, Memory.byte, Ne.symm hx]
      · rename_i hge hne
        simp only [Memory.byte, ih hr.2]
        by_cases hx : k = x
        · subst hx; simp [Ne.symm hne]
        · simp [hx]

/-- The addresses a byte write leaves listed were listed or are the one written. -/
theorem mem_setByte {m : Memory} {addr : Nat} {v : Byte} {cell : Host.Cell} (h : cell ∈ m.setByte addr v) :
    cell ∈ m ∨ cell = (addr, v) ∧ v ≠ unlistedByte := by
  have listed {rest : Memory} (h : cell ∈ Memory.listed addr v rest) :
      cell ∈ rest ∨ cell = (addr, v) ∧ v ≠ unlistedByte := by
    unfold Memory.listed at h
    split at h
    · exact .inl h
    · rename_i hv
      rcases List.mem_cons.mp h with rfl | h
      · exact .inr ⟨rfl, hv⟩
      · exact .inl h
  induction m with
  | nil => exact listed h
  | cons c rest ih =>
    obtain ⟨k, w⟩ := c
    simp only [Memory.setByte] at h
    split at h
    · exact listed h
    · split at h
      · rcases listed h with h | h
        · exact .inl (by simp [h])
        · exact .inr h
      · rcases List.mem_cons.mp h with rfl | h
        · exact .inl (by simp)
        · rcases ih h with h | h
          · exact .inl (by simp [h])
          · exact .inr h

/-- A byte write keeps the addresses rising. -/
theorem pairwise_setByte {m : Memory} (hm : m.Pairwise fun x y => x.1 < y.1) (addr : Nat) (v : Byte) :
    (m.setByte addr v).Pairwise fun x y => x.1 < y.1 := by
  have listed {rest : Memory} (hr : rest.Pairwise fun x y => x.1 < y.1) (h : ∀ cell ∈ rest, addr < cell.1) :
      (Memory.listed addr v rest).Pairwise fun x y => x.1 < y.1 := by
    unfold Memory.listed
    split
    · exact hr
    · exact List.pairwise_cons.mpr ⟨h, hr⟩
  induction m with
  | nil => exact listed .nil (by simp)
  | cons c rest ih =>
    obtain ⟨k, w⟩ := c
    have hr := List.pairwise_cons.mp hm
    simp only [Memory.setByte]
    split
    · rename_i hlt
      refine listed hm ?_
      intro cell hc
      rcases List.mem_cons.mp hc with rfl | hc
      · exact hlt
      · exact hlt.trans (hr.1 cell hc)
    · split
      · rename_i heq
        subst heq
        exact listed hr.2 hr.1
      · refine List.pairwise_cons.mpr ⟨?_, ih hr.2⟩
        intro cell hc
        rcases mem_setByte hc with hc | ⟨rfl, -⟩
        · exact hr.1 cell hc
        · show k < addr
          omega

/-- A byte write inside the address space keeps the canonical form. -/
theorem canonical_setByte {m : Memory} (hm : m.Canonical) {addr : Nat} (ha : addr < addressSpace) (v : Byte) :
    (m.setByte addr v).Canonical := by
  refine ⟨pairwise_setByte hm.1 addr v, ?_⟩
  intro cell hc
  rcases mem_setByte hc with hc | ⟨rfl, hv⟩
  · exact hm.2 cell hc
  · exact ⟨ha, hv⟩

/-- A word write inside the address space keeps the canonical form. -/
theorem canonical_setWord {m : Memory} (hm : m.Canonical) {addr : Nat} (ha : addr + 3 < addressSpace) (v : Word) :
    (m.setWord addr v).Canonical :=
  canonical_setByte (canonical_setByte (canonical_setByte (canonical_setByte hm (by omega) _) (by omega) _)
    (by omega) _) (by omega) _

/-- What each byte reads as after a word write. -/
theorem byte_setWord {m : Memory} (hm : m.Canonical) (addr : Nat) (v : Word) (x : Nat) :
    (m.setWord addr v).byte x =
      if x = addr then v.extractLsb' 0 8
      else if x = addr + 1 then v.extractLsb' 8 8
      else if x = addr + 2 then v.extractLsb' 16 8
      else if x = addr + 3 then v.extractLsb' 24 8
      else m.byte x := by
  have h0 := pairwise_setByte hm.1 addr (v.extractLsb' 0 8)
  have h1 := pairwise_setByte h0 (addr + 1) (v.extractLsb' 8 8)
  have h2 := pairwise_setByte h1 (addr + 2) (v.extractLsb' 16 8)
  unfold Memory.setWord
  rw [byte_setByte h2, byte_setByte h1, byte_setByte h0, byte_setByte hm.1]
  split_ifs <;> first | rfl | omega

/-- A word write leaves the bytes outside its word alone. -/
theorem byte_setWord_outside {m : Memory} (hm : m.Canonical) {addr x : Nat} (v : Word)
    (hx : x < addr ∨ addr + 4 ≤ x) : (m.setWord addr v).byte x = m.byte x := by
  rw [byte_setWord hm]
  split_ifs <;> first | rfl | omega

/-- A word write leaves a word that does not overlap it alone. -/
theorem word_setWord_disjoint {m : Memory} (hm : m.Canonical) {addr x : Nat} (v : Word)
    (hx : x + 4 ≤ addr ∨ addr + 4 ≤ x) : (m.setWord addr v).word x = m.word x := by
  have h (i : Nat) (hi : i < 4) : (m.setWord addr v).byte (x + i) = m.byte (x + i) :=
    byte_setWord_outside hm v (by omega)
  simp only [Memory.word, h 3 (by omega), h 2 (by omega), h 1 (by omega)]
  rw [show (m.setWord addr v).byte x = m.byte x from h 0 (by omega)]

/-- The reset state's memory is in canonical form. -/
theorem canonical_reset : State.reset.mem.Canonical := ⟨.nil, by simp [State.reset, State.launch]⟩

/-- `Memory.wf` says the canonical form. -/
theorem wf_iff_canonical (m : Memory) : m.wf = true ↔ m.Canonical := by simp [Memory.wf]

/-! The memory port's two operations: everything they can do -/

/-- If a read answers, its address is aligned and inside the space, the word is the memory's, and only the trace grows. -/
theorem memRead_ok {addr : Nat} {s t : State} {v : Word} (h : memRead addr s = .ok (v, t)) :
    accessError addr = none ∧ v = s.mem.word addr ∧ t = { s with bus := s.bus ++ [.read addr v] } := by
  unfold memRead at h
  split at h
  · cases h
  · rename_i hn
    cases h
    exact ⟨hn, rfl, rfl⟩

/-- If a write answers, its address is aligned and inside the space, and the memory and the trace change. -/
theorem memWrite_ok {addr : Nat} {v : Word} {s t : State} (h : memWrite addr v s = .ok t) :
    accessError addr = none ∧ t = { s with mem := s.mem.setWord addr v, bus := s.bus ++ [.write addr v] } := by
  unfold memWrite at h
  split at h
  · cases h
  · rename_i hn
    cases h
    exact ⟨hn, rfl⟩

theorem memRead_of_accessible {addr : Nat} (h : accessError addr = none) (s : State) :
    memRead addr s = .ok (s.mem.word addr, { s with bus := s.bus ++ [.read addr (s.mem.word addr)] }) := by
  simp [memRead, h]

theorem memWrite_of_accessible {addr : Nat} (h : accessError addr = none) (v : Word) (s : State) :
    memWrite addr v s = .ok { s with mem := s.mem.setWord addr v, bus := s.bus ++ [.write addr v] } := by
  simp [memWrite, h]

theorem accessError_eq_none {addr : Nat} :
    accessError addr = none ↔ addr % 4 = 0 ∧ addr + 3 < addressSpace := by
  unfold accessError
  split_ifs with h1 h2 <;> simp <;> omega

/-- A write keeps the memory canonical. -/
theorem memWrite_canonical {addr : Nat} {v : Word} {s t : State} (h : memWrite addr v s = .ok t)
    (hm : s.mem.Canonical) : t.mem.Canonical := by
  obtain ⟨ha, rfl⟩ := memWrite_ok h
  exact canonical_setWord hm (accessError_eq_none.mp ha).2 v

end Sys2Proof.Machine
end

