-- ==== Sys2Proof/Laws/Ops.lean ====
section
/-! SUPPORT. What the shared operations do: the dispatch's check, the rings, the coefficient port. -/

namespace Sys2Proof.Machine

theorem whenInitDone_of_initDone {s : State} (h : s.initDone = true) (r : Result) : whenInitDone s r = r := by
  simp [whenInitDone, h]

theorem whenInitDone_of_not_initDone {s : State} (h : s.initDone = false) (r : Result) :
    whenInitDone s r = .next (raiseFault .notInit s) := by simp [whenInitDone, h]

/-- A computation's outcome is a next state exactly where the computation answers. -/
theorem ofExcept_eq_next {x : Except Fault State} {t : State} : Result.ofExcept x = .next t ↔ x = .ok t := by
  cases x <;> simp [Result.ofExcept]

/-- No computation ends in a refusal. -/
theorem ofExcept_ne_refused {x : Except Fault State} {r : Refusal} : Result.ofExcept x ≠ .refused r := by
  cases x <;> simp [Result.ofExcept]

/-! THRESH -/

/-- THRESH is 2^27 in an accepted configuration (00_scope R9). -/
theorem thresh_of_accepted {c : Config} (h : c.Accepted) : c.thresh = 2 ^ 27 := by
  have hg : c.grainCount = 2 := h.2.2.2.2.2.2.1
  simp [Config.thresh, hg, one]

/-! Rings -/

theorem ringCap_pos (c : Config) (r : Ring) : 0 < ringCap c r := by
  cases r <;> exact Nat.pow_pos (by decide)

/-- A masked index is below the capacity (42_ring_buffer R72). -/
theorem ringIdx_lt (c : Config) (r : Ring) (k : Int) : ringIdx c r k < ringCap c r := by
  have h := ringCap_pos c r
  unfold ringIdx
  have h1 := Int.emod_lt_of_pos k (by exact_mod_cast h : (0 : Int) < (ringCap c r : Int))
  have h2 := Int.emod_nonneg k (by exact_mod_cast h.ne' : (ringCap c r : Int) ≠ 0)
  omega

/-- An index in range is its own mask. -/
theorem ringIdx_of_lt {c : Config} {r : Ring} {n : Nat} (h : n < ringCap c r) : ringIdx c r n = n := by
  unfold ringIdx
  rw [Int.emod_eq_of_lt (by omega) (by exact_mod_cast h)]
  simp

/-- The index is periodic in the capacity (42_ring_buffer R76). -/
theorem ringIdx_add_cap (c : Config) (r : Ring) (k : Int) : ringIdx c r (k + ringCap c r) = ringIdx c r k := by
  simp [ringIdx]

/-- What INIT's checks say of each region (41_control R69). -/
theorem basesOk_iff {c : Config} {a b : Nat} :
    basesOk c a b = true ↔
      (a % 4 = 0 ∧ b % 4 = 0) ∧
      (a + 4 * c.capIn ≤ addressSpace ∧ b + 4 * c.capFb ≤ addressSpace) ∧
      (a + 4 * c.capIn ≤ b ∨ b + 4 * c.capFb ≤ a) := by
  simp only [basesOk, Bool.and_eq_true, decide_eq_true_eq, and_assoc]
  simp only [regionSize, ringCap]

/-- Once the bases are checked, every ring access is aligned and inside the address space (20_memory R37). -/
theorem accessError_ringAddr {s : State} (h : basesOk s.cfg s.baseIn.toNat s.baseFb.toNat = true) (r : Ring) (k : Int) :
    accessError (ringAddr s r k) = none := by
  have hk := ringIdx_lt s.cfg r k
  have hb := basesOk_iff.mp h
  rw [accessError_eq_none]
  cases r <;> simp only [ringAddr, State.base, ringCap] at * <;> omega

/-- Ring accesses of the two rings do not overlap (41_control R69). -/
theorem ringAddr_disjoint {s : State} (h : basesOk s.cfg s.baseIn.toNat s.baseFb.toNat = true) (k l : Int) :
    ringAddr s .inp k + 4 ≤ ringAddr s .fb l ∨ ringAddr s .fb l + 4 ≤ ringAddr s .inp k := by
  have hk := ringIdx_lt s.cfg .inp k
  have hl := ringIdx_lt s.cfg .fb l
  have hb := basesOk_iff.mp h
  simp only [ringAddr, State.base, ringCap] at *
  omega

/-- A ring read answers the word in memory and only the trace grows. -/
theorem ringRead_of_basesOk {s : State} (h : basesOk s.cfg s.baseIn.toNat s.baseFb.toNat = true) (r : Ring) (k : Int) :
    ringRead r k s =
      .ok (s.ringWord r k, { s with bus := s.bus ++ [.read (ringAddr s r k) (s.ringWord r k)] }) :=
  memRead_of_accessible (accessError_ringAddr h r k) s

/-- A ring write changes its word and the trace. -/
theorem ringWrite_of_basesOk {s : State} (h : basesOk s.cfg s.baseIn.toNat s.baseFb.toNat = true) (r : Ring) (k : Int)
    (v : Word) :
    ringWrite r k v s =
      .ok { s with mem := s.mem.setWord (ringAddr s r k) v, bus := s.bus ++ [.write (ringAddr s r k) v] } :=
  memWrite_of_accessible (accessError_ringAddr h r k) v s

/-! The loops of the output commands: what they leave unchanged -/

/-- DOUT's loop changes the two traces and nothing else. -/
theorem firTaps_frame {base : Int} {sel : BitVec 8} {js : List Nat} {acc acc' : BitVec 64} {s t : State}
    (h : firTaps base sel js acc s = .ok (acc', t)) :
    ∃ bus coefReads, t = { s with bus := bus, coefReads := coefReads } := by
  induction js generalizing acc s with
  | nil =>
    cases h
    exact ⟨_, _, rfl⟩
  | cons j js ih =>
    simp only [firTaps] at h
    cases hr : ringRead .fb (base + j) s with
    | error f => simp [hr, bind, Except.bind] at h
    | ok p =>
      obtain ⟨x, u⟩ := p
      obtain ⟨-, -, rfl⟩ := memRead_ok hr
      simp only [hr, bind, Except.bind] at h
      obtain ⟨bus, reads, rfl⟩ := ih h
      exact ⟨bus, reads, rfl⟩

/-- One slot's turn in ROUT's loop changes the trace and nothing else. -/
theorem addGrain_frame {g : Grain} {sum sum' : Word} {s t : State} (h : addGrain g sum s = .ok (sum', t)) :
    ∃ bus, t = { s with bus := bus } := by
  unfold addGrain at h
  split at h
  · cases hr : ringRead .inp (grainReadIndex g) s with
    | error f => simp [hr, bind, Except.bind] at h
    | ok p =>
      obtain ⟨x, u⟩ := p
      obtain ⟨-, -, rfl⟩ := memRead_ok hr
      simp only [hr, bind, Except.bind, pure, Except.pure, Except.ok.injEq, Prod.mk.injEq] at h
      exact ⟨_, h.2.symm⟩
  · cases h
    exact ⟨_, rfl⟩

/-- An Active slot's turn, once the bases are checked (45_grain_engine R94, R95). -/
theorem addGrain_active {g : Grain} (hg : g.active = true) (sum : Word) {s : State}
    (h : basesOk s.cfg s.baseIn.toNat s.baseFb.toNat = true) :
    addGrain g sum s =
      .ok (sum + contribution s.cfg g (s.ringWord .inp (grainReadIndex g)),
        { s with bus := s.bus ++
            [.read (ringAddr s .inp (grainReadIndex g)) (s.ringWord .inp (grainReadIndex g))] }) := by
  simp [addGrain, hg, ringRead_of_basesOk h, bind, Except.bind, pure, Except.pure]

/-- An Inactive slot's turn does nothing (45_grain_engine R95). -/
theorem addGrain_inactive {g : Grain} (hg : g.active = false) (sum : Word) (s : State) :
    addGrain g sum s = .ok (sum, s) := by simp [addGrain, hg]

/-! What a command can do: one lemma per meaning -/

/-- RESET, PUSH, UPDATE, DOUT and ROUT either fault with cause 1 or run. -/
theorem whenInitDone_cases {s : State} {r : Result} {t : State} (h : whenInitDone s r = .next t) :
    (s.initDone = false ∧ t = raiseFault .notInit s) ∨ (s.initDone = true ∧ r = .next t) := by
  unfold whenInitDone at h
  split at h
  · rename_i hd
    exact .inr ⟨hd, h⟩
  · rename_i hd
    cases h
    exact .inl ⟨by simpa using hd, rfl⟩

/-- INIT's three outcomes (41_control R69). -/
theorem execInit_cases {a b : Word} {s t : State} (h : execInit a b s = .next t) :
    (s.initDone = true ∧ t = raiseFault .reinit s) ∨
    (s.initDone = false ∧ basesOk s.cfg a.toNat b.toNat = false ∧ t = raiseFault .badBase s) ∨
    (s.initDone = false ∧ basesOk s.cfg a.toNat b.toNat = true ∧
      t = respond false 0
        { s with baseIn := a, baseFb := b, wpIn := 0, wpFb := 0, status := setStatusBit s.status 0 }) := by
  unfold execInit baseOperand at h
  split at h
  · rename_i hd
    cases h
    exact .inl ⟨hd, rfl⟩
  · rename_i hd
    have hd' : s.initDone = false := by simpa using hd
    split at h
    · rename_i hb
      cases h
      exact .inr (.inr ⟨hd', hb, rfl⟩)
    · rename_i hb
      cases h
      exact .inr (.inl ⟨hd', by simpa using hb, rfl⟩)

/-- PUSH once the bases are checked (42_ring_buffer R75): the pointers, the two words, the two accesses, the response. -/
theorem pushBoth_of_basesOk {s : State} (h : basesOk s.cfg s.baseIn.toNat s.baseFb.toNat = true) (a b : Word) :
    pushBoth a b s = .ok
      { s with
        wpIn := pushedWp s .inp
        wpFb := pushedWp s .fb
        mem := (s.mem.setWord (ringAddr s .inp (pushedWp s .inp)) a).setWord (ringAddr s .fb (pushedWp s .fb)) b
        bus := s.bus ++ [.write (ringAddr s .inp (pushedWp s .inp)) a] ++ [.write (ringAddr s .fb (pushedWp s .fb)) b]
        responses := s.responses ++ [⟨false, 0⟩] } := by
  have hin : pushIn a s = .ok
      { s with
        wpIn := pushedWp s .inp
        mem := s.mem.setWord (ringAddr s .inp (pushedWp s .inp)) a
        bus := s.bus ++ [.write (ringAddr s .inp (pushedWp s .inp)) a] } :=
    ringWrite_of_basesOk (s := { s with wpIn := pushedWp s .inp }) h .inp (pushedWp s .inp) a
  unfold pushBoth
  simp only [hin, bind, Except.bind]
  unfold pushFb
  rw [ringWrite_of_basesOk (by exact h)]
  rfl

/-- UPDATE's two outcomes once INIT is done (43_delay_smoother R80, 60_exceptions R107). -/
theorem execUpdate_of_initDone {s : State} (h : s.initDone = true) (a : Word) :
    execUpdate a s =
      if spawnsEmpty (grainAdvance (smooth a s)) then .next (raiseFault .div0 (updateEngine a s))
      else .next (respond false 0 (updateEngine a s)) := by simp [execUpdate, whenInitDone, h]

/-- What UPDATE's four steps leave unchanged. -/
theorem updateEngine_frame (a : Word) (s : State) :
    updateEngine a s =
      { s with
        target := (updateEngine a s).target
        eff := (updateEngine a s).eff
        origin := (updateEngine a s).origin
        grain0 := (updateEngine a s).grain0
        grain1 := (updateEngine a s).grain1 } := by
  unfold updateEngine grainTrigger
  split
  · unfold spawn
    generalize hg : (grainAdvance (smooth a s)).origin = g
    cases g <;> rfl
  · rfl

end Sys2Proof.Machine
end

