-- ==== Sys2Proof/Laws/HostPort.lean ====
section
/-! SUPPORT. What an abandoned command can do: the accesses it completes, the word in flight, and the state it is left in. -/

namespace Sys2Proof.Machine

/-- A byte of the regions, which exist once INIT has bound them. -/
theorem inRegions_iff {s : State} {addr : Nat} :
    inRegions s addr = true ↔
      s.initDone = true ∧
        ((s.baseIn.toNat ≤ addr ∧ addr < s.baseIn.toNat + 4 * s.cfg.capIn) ∨
          (s.baseFb.toNat ≤ addr ∧ addr < s.baseFb.toNat + 4 * s.cfg.capFb)) := by
  unfold inRegions
  rw [Bool.and_eq_true, Bool.or_eq_true, decide_eq_true_iff, decide_eq_true_iff]
  rfl

/-- If a host write answers, no command was in progress, the byte lies outside the regions, and only it changes. -/
theorem hostWrite_ok {addr : Word} {v : Byte} {s t : State} (h : hostWrite addr v s = .next t) :
    s.busy = false ∧ inRegions s addr.toNat = false ∧ t = { s with mem := s.mem.setByte addr.toNat v } := by
  unfold hostWrite at h
  split at h
  · cases h
  · rename_i hn
    cases h
    rw [Bool.or_eq_true, not_or, Bool.not_eq_true, Bool.not_eq_true] at hn
    exact ⟨hn.1, hn.2, rfl⟩

/-- If a host read answers, no command was in progress, and nothing changes. -/
theorem hostRead_ok {addr : Word} {s t : State} (h : hostRead addr s = .next t) : s.busy = false ∧ t = s := by
  unfold hostRead at h
  split at h
  · cases h
  · rename_i hn
    cases h
    exact ⟨by simpa using hn, rfl⟩

/-- If an access completes, its address is one the core can make, and only the memory and the trace may change. -/
theorem completeAccess_ok {x : BusAccess} {s t : State} (h : completeAccess x s = .ok t) :
    (∃ mem bus, t = { s with mem := mem, bus := bus }) ∧ (s.mem.Canonical → t.mem.Canonical) := by
  cases x with
  | read addr v =>
    simp only [completeAccess] at h
    cases hr : memRead addr s with
    | error f => simp [hr, Except.map] at h
    | ok p =>
      obtain ⟨v', u⟩ := p
      obtain ⟨-, -, rfl⟩ := memRead_ok hr
      simp only [hr, Except.map, Except.ok.injEq] at h
      subst h
      exact ⟨⟨_, _, rfl⟩, id⟩
  | write addr v =>
    obtain ⟨-, ht⟩ := memWrite_ok h
    exact ⟨⟨_, _, ht⟩, memWrite_canonical h⟩

/-- Completed accesses change the memory and the trace and nothing else, and keep the memory canonical. -/
theorem completeAccesses_ok {xs : List BusAccess} {s t : State} (h : completeAccesses xs s = .ok t) :
    (∃ mem bus, t = { s with mem := mem, bus := bus }) ∧ (s.mem.Canonical → t.mem.Canonical) := by
  induction xs generalizing s with
  | nil =>
    cases h
    exact ⟨⟨_, _, rfl⟩, id⟩
  | cons x xs ih =>
    cases hx : completeAccess x s with
    | error f => simp [completeAccesses, hx, bind, Except.bind] at h
    | ok u =>
      simp only [completeAccesses, hx, bind, Except.bind] at h
      obtain ⟨⟨m, b, rfl⟩, hu⟩ := completeAccess_ok hx
      obtain ⟨⟨m', b', rfl⟩, ht⟩ := ih h
      exact ⟨⟨m', b', rfl⟩, fun hs => ht (hu hs)⟩

/-- Reads of accessible words, with what the memory holds there, complete and add themselves to the trace. -/
theorem completeAccesses_reads {xs : List BusAccess} {s : State}
    (h : ∀ x ∈ xs, ∃ addr, accessError addr = none ∧ x = .read addr (s.mem.word addr)) :
    completeAccesses xs s = .ok { s with bus := s.bus ++ xs } := by
  induction xs generalizing s with
  | nil => simp [completeAccesses]
  | cons x xs ih =>
    obtain ⟨addr, ha, rfl⟩ := h x (by simp)
    simp only [completeAccesses, completeAccess, memRead_of_accessible ha, Except.map, bind, Except.bind]
    exact (ih (s := { s with bus := s.bus ++ [.read addr (s.mem.word addr)] })
      fun y hy => h y (List.mem_cons_of_mem _ hy)).trans (by simp)

/-- The access in flight changes at most the memory, and keeps it canonical. -/
theorem tearWord_ok {xs : List BusAccess} {torn : Option Word} {s t : State} (h : tearWord xs torn s = .ok t) :
    (∃ mem, t = { s with mem := mem }) ∧ (s.mem.Canonical → t.mem.Canonical) := by
  unfold tearWord at h
  split at h
  · cases h
    exact ⟨⟨_, rfl⟩, id⟩
  · split at h
    · cases h
    · cases h
      exact ⟨⟨_, rfl⟩, id⟩
  · split at h
    · cases h
    · rename_i ha
      cases h
      exact ⟨⟨_, rfl⟩, fun hs => canonical_setWord hs (accessError_eq_none.mp ha).2 _⟩
    · cases h
      exact ⟨⟨_, rfl⟩, id⟩

/-- Where no access is left or the next is an accessible read, nothing is torn. -/
theorem tearWord_reads {xs : List BusAccess} {s : State}
    (h : ∀ x ∈ xs, ∃ addr v, accessError addr = none ∧ x = .read addr v) (torn : Option Word) : tearWord xs torn s = .ok s := by
  cases xs with
  | nil => rfl
  | cons x xs =>
    obtain ⟨addr, v, ha, rfl⟩ := h x (by simp)
    simp [tearWord, ha]

/-- Everything a begun command can do: the memory and the two traces may change, and BUSY is 1. -/
theorem beginCommand_ok {i : Instr} {acks coefs : Nat} {torn : Option Word} {s t : State}
    (h : beginCommand i acks coefs torn s = .next t) :
    (∃ mem bus reads, t = { s with mem := mem, bus := bus, coefReads := reads, busy := true }) ∧
      (s.mem.Canonical → t.mem.Canonical) := by
  have h := ofExcept_eq_next.mp h
  cases hc : completeAccesses ((plannedAccesses i s).take acks) s with
  | error f => simp [hc, bind, Except.bind] at h
  | ok u =>
    cases hw : tearWord ((plannedAccesses i s).drop acks) torn u with
    | error f => simp [hc, hw, bind, Except.bind] at h
    | ok w =>
      simp only [hc, hw, bind, Except.bind, pure, Except.pure, Except.ok.injEq] at h
      subst h
      obtain ⟨⟨m, b, rfl⟩, hu⟩ := completeAccesses_ok hc
      obtain ⟨⟨m', rfl⟩, hw'⟩ := tearWord_ok hw
      exact ⟨⟨m', b, _, rfl⟩, fun hs => hw' (hu hs)⟩

/-- A planned read of a ring element is one the core can make, once the bases are checked (20_memory R37). -/
theorem plannedRead_accessible {s : State} (h : basesOk s.cfg s.baseIn.toNat s.baseFb.toNat = true) (r : Ring) (k : Int) :
    ∃ addr, accessError addr = none ∧ plannedRead s r k = .read addr (s.mem.word addr) :=
  ⟨_, accessError_ringAddr h r k, rfl⟩

end Sys2Proof.Machine
end

