-- ==== Sys2Proof/Laws/PerInstr.lean ====
section
/-! SUPPORT. Statements about every instruction as syntax, one lemma per constructor. -/

namespace Sys2Proof.Laws.IgnoredFields

/-- Whatever the fields a command ignores hold, its beat decodes to it (30_encoding R50), and its op field is its opcode
(R49). -/
def Statement (i : Instr) : Prop :=
  ∀ x y : Word, decode (encodeWith x y i) = i ∧ (encodeWith x y i).op = i.opcode

theorem nop : Statement .nop := fun _ _ => ⟨rfl, rfl⟩
theorem init (a b : Word) : Statement (.init a b) := fun _ _ => ⟨rfl, rfl⟩
theorem reset : Statement .reset := fun _ _ => ⟨rfl, rfl⟩
theorem push (a b : Word) : Statement (.push a b) := fun _ _ => ⟨rfl, rfl⟩
theorem update (a : Word) : Statement (.update a) := fun _ _ => ⟨rfl, rfl⟩
theorem dout : Statement .dout := fun _ _ => ⟨rfl, rfl⟩
theorem rout : Statement .rout := fun _ _ => ⟨rfl, rfl⟩
theorem reserved7 : Statement .reserved7 := fun _ _ => ⟨rfl, rfl⟩

end Sys2Proof.Laws.IgnoredFields
end

