-- ==== Sys2Proof/Laws/Step.lean ====
section
/-! SUPPORT. What a step is: the refusal of a configuration, the idle core, and the host's next move. -/

namespace Sys2Proof.Machine

theorem accepted_iff {c : Config} : c.accepted = true ↔ c.Accepted := by
  unfold Config.accepted
  exact decide_eq_true_iff

theorem step_of_not_accepted {s : State} (h : ¬ s.cfg.Accepted) : step s = .refused .configNotAccepted := by
  have : ¬ s.cfg.accepted = true := fun ha => h (accepted_iff.mp ha)
  unfold step
  rw [if_neg this]

theorem step_of_no_move {s : State} (h : s.cfg.Accepted) (hh : s.host = []) : step s = .next s := by
  unfold step
  rw [if_pos (accepted_iff.mpr h), hh]

theorem step_of_move {s : State} {m : HostMove} {rest : List HostMove} (h : s.cfg.Accepted) (hh : s.host = m :: rest) :
    step s = hostMove m { s with host := rest } := by
  unfold step
  rw [if_pos (accepted_iff.mpr h), hh]

/-- Everything a step that answers can be. -/
theorem step_cases {s t : State} (h : step s = .next t) :
    s.cfg.Accepted ∧
      ((s.host = [] ∧ t = s) ∨ ∃ m rest, s.host = m :: rest ∧ hostMove m { s with host := rest } = .next t) := by
  by_cases ha : s.cfg.Accepted
  · refine ⟨ha, ?_⟩
    match hh : s.host with
    | [] =>
      rw [step_of_no_move ha hh] at h
      cases h
      exact .inl ⟨rfl, rfl⟩
    | m :: rest =>
      rw [step_of_move ha hh] at h
      exact .inr ⟨m, rest, rfl, h⟩
  · rw [step_of_not_accepted ha] at h
    cases h

/-- A beat offered to a ready port is its command's `exec`. -/
theorem hostMove_beat {s : State} (h : s.busy = false) (b : Beat) : hostMove (.beat b) s = exec (decode b) s := by
  simp [hostMove, State.cmdReady, h]

/-- A command begun at a ready port is `beginCommand`. -/
theorem hostMove_beginBeat {s : State} (h : s.busy = false) (b : Beat) (acks coefs : Nat) (torn : Option Word) :
    hostMove (.beginBeat b acks coefs torn) s = beginCommand (decode b) acks coefs torn s := by
  simp [hostMove, State.cmdReady, h]

end Sys2Proof.Machine
end

