-- ==== Sys2Proof/Tests/Slice0.lean ====
section
/-! SUPPORT. Tests whose expected values are the spec's own vectors (95_test_vectors) and examples, and, for every statement with
hypotheses, a state that meets them. -/

namespace Sys2Proof.Tests

open Sys2Proof Sys2Proof.Machine

/-! ## Fixtures (95_test_vectors section 1) -/

/-- The configuration TST with the bank LIN. -/
def tst : Config where
  capInLog2 := 4
  capFbLog2 := 4
  taps := 4
  bankLog2 := 1
  coefFrac := 24
  coef := linBank 4 1 24
  minGrainSize := 2
  maxGrainSize := 8
  smoothK := 32768
  smoothShift := 16
  resetTarget := 8
  win := hannTable
  grainCount := 2

/-- TST after `INIT 0x20000000, 0x20000040` on zeroed memory. -/
def tstInit : State :=
  { State.launch tst [] [] with status := 1, baseIn := 0x20000000, baseFb := 0x20000040 }

/-- REF after `INIT 0x20000000, 0x20020000` on zeroed memory. -/
def refInit : State := { State.reset with status := 1, baseIn := 0x20000000, baseFb := 0x20020000 }

/-- REF at power-on. -/
def refOn : State := State.reset

/-- Program P2 after the UPDATE of tick 6: IN index `k` holds q(16 - k) for `k` in 9..15. -/
def tstRun : State :=
  { tstInit with
    wpIn := 9, wpFb := 9
    grain0 := ⟨0x10000000, 0x4000000, 0, 9, 4⟩, grain1 := ⟨0x8000000, 0x4000000, 2, 11, 4⟩
    mem := [(0x20000027, 7), (0x2000002B, 6), (0x2000002F, 5), (0x20000033, 4), (0x20000037, 3), (0x2000003B, 2),
      (0x2000003F, 1)] }

/-- The state of a next outcome. -/
def stateOf : Result → Option State
  | .next s => some s
  | .fault _ => none
  | .refused _ => none

/-- A field of the state a command leaves. -/
def after {α : Type} (i : Instr) (s : State) (f : State → α) : Option α := (stateOf (exec i s)).map f

/-! ## WellFormed: each check refuses an ill-formed term -/

theorem test_ref_accepted : Config.ref.accepted = true := by decide
theorem test_tst_accepted : tst.accepted = true := by decide
theorem test_cap_in_31_refused : { tst with capInLog2 := 31 }.accepted = false := by decide
theorem test_taps_odd_refused : ¬ { tst with taps := 3 }.TapsOk := by decide
theorem test_bank_shape_refused : ¬ { tst with coef := linBank 4 0 24 }.BankOk := by decide
theorem test_min_size_1_refused : ¬ { tst with minGrainSize := 1 }.SizesOk := by decide
theorem test_smooth_k_too_big_refused : ¬ { tst with smoothK := 65536 }.SmoothOk := by decide
theorem test_reset_target_9_refused : ¬ { tst with resetTarget := 9 }.ResetTargetOk := by decide
theorem test_grain_count_3_refused : { tst with grainCount := 3 }.accepted = false := by decide
theorem test_small_fb_ring_refused : ¬ { tst with capFbLog2 := 3 }.OldestTapFits := by decide
theorem test_newest_tap_refused : ¬ { tst with taps := 6 }.NewestTapFits := by decide
theorem test_small_in_ring_refused : ¬ { tst with capInLog2 := 3 }.OldestGrainReadFits := by decide
theorem test_q_of_a_tenth_refused : (AsmOperand.q 1 1).wellFormed = false := by decide
theorem test_decimal_2_32_refused : (AsmOperand.dec (2 ^ 32)).wellFormed = false := by decide
theorem test_hex_2_32_refused : (AsmOperand.hex (2 ^ 32)).wellFormed = false := by decide
theorem test_every_command_wellFormed : (Instr.push 0xFFFFFFFF 0).wellFormed = true := by decide

/-! ## Decode: words written out from 30_encoding R48, R49 (op in bits 66..64, b in 63..32, a in 31..0) -/

theorem test_decode_nop : decodeBits 0 = .ok .nop := by decide
/-- V-CTL-2: `1:20020000:20000000`. -/
theorem test_decode_init : decodeBits 0x12002000020000000 = .ok (.init 0x20000000 0x20020000) := by decide
theorem test_decode_reset : decodeBits 0x20000000000000000 = .ok .reset := by decide
/-- W1: `3:FF800000:01000000`. -/
theorem test_decode_push : decodeBits 0x3FF80000001000000 = .ok (.push 0x01000000 0xFF800000) := by decide
/-- V-SM-3: `4:00000000:FFFFFFFF`. -/
theorem test_decode_update : decodeBits 0x400000000FFFFFFFF = .ok (.update 0xFFFFFFFF) := by decide
theorem test_decode_dout : decodeBits 0x50000000000000000 = .ok .dout := by decide
/-- R50: ROUT ignores both operands. -/
theorem test_decode_rout_ignores : decodeBits 0x6FFFFFFFF12345678 = .ok .rout := by decide
theorem test_decode_reserved7 : decodeBits 0x70000000000000000 = .ok .reserved7 := by decide
/-- R48: a beat has 67 bits. -/
theorem test_decode_too_wide : decodeBits 0x80000000000000000 = .error .widerThanABeat := by decide
theorem test_encode_push : encodeBits (.push 0x01000000 0xFF800000) = 0x3FF80000001000000 := by decide
/-- opcode_table.json: match 0x4 under mask 0x7, operands zero. -/
theorem test_table_word_update : decodeTableWord 8 4 = some (.update 0) := by decide

/-! ## Control commands -/

/-- V-EXC-3. -/
theorem test_nop : after .nop refOn (fun t => (t.status, t.responses)) = some (0, [⟨false, 0⟩]) := by decide
/-- V-CTL-3: the IN region ends exactly at 2^32. -/
theorem test_init_to_the_top :
    after (.init 0xFFFE0000 0x20000000) refOn (fun t => (t.status, t.baseIn, t.responses)) =
      some (1, 0xFFFE0000, [⟨false, 0⟩]) := by decide
/-- V-CTL-7: overlap by one word. -/
theorem test_init_overlap :
    after (.init 0x20000000 0x2001FFFC) refOn (fun t => (t.status, t.baseIn, t.responses)) =
      some (8, 0, [⟨true, 3⟩]) := by decide
/-- V-CTL-12 in TST. -/
theorem test_reset :
    after .reset tstRun (fun t => (t.origin, t.grain0, t.grain1, t.target, t.eff, t.wpIn)) =
      some (.zero, .cleared, .cleared, 8, 2048, 9) := by decide
/-- V-EXC-1. -/
theorem test_reset_before_init :
    after .reset refOn (fun t => (t.status, t.responses)) = some (2, [⟨true, 1⟩]) := by decide
/-- V-EXC-5. -/
theorem test_reserved7 :
    after .reserved7 refInit (fun t => (t.status, t.responses)) = some (0x11, [⟨true, 4⟩]) := by decide

/-! ## PUSH -/

/-- W1 in TST: word at 0x2000003C = 0xFF800000; word at 0x2000007C = 0x02400000, bytes 00 00 40 02. -/
theorem test_push :
    after (.push 0xFF800000 0x02400000) tstInit (fun t => (t.wpIn, t.wpFb, t.mem)) =
      some (15, 15, [(0x2000003E, 0x80), (0x2000003F, 0xFF), (0x2000007E, 0x40), (0x2000007F, 0x02)]) := by decide
/-- V-RING-5. -/
theorem test_push_before_init :
    after (.push 100 0) refOn (fun t => (t.status, t.wpIn, t.mem, t.responses)) =
      some (2, 0, [], [⟨true, 1⟩]) := by decide

/-! ## UPDATE -/

/-- V-GR-1: REF after RESET, `UPDATE 4096`. -/
theorem test_update_first_spawn :
    after (.update 4096) refInit (fun t => (t.target, t.eff, t.origin, t.grain0, t.grain1)) =
      some (4096, 18857, .one, ⟨0, 7456541, 1, 0, 0⟩, ⟨268435456, 7456541, 0, 0, 36⟩) := by decide
/-- V-GR-5: a spawn of length 0 (the configuration fails R6; `exec` alone is asked). -/
theorem test_update_div0 :
    after (.update 1)
        { tstInit with cfg := { tst with minGrainSize := 1, resetTarget := 1 }, target := 1, eff := 256 }
        (fun t => (t.status, t.origin, t.grain0, t.grain1, t.responses)) =
      some (0x21, .one, ⟨0, 0x10000000, 1, 0, 0⟩, ⟨0x10000000, 0x10000000, 0, 0, 0⟩, [⟨true, 5⟩]) := by decide
/-- V-SM-4: 63 is below MIN_GRAIN_SIZE and is ignored, not clamped. -/
theorem test_request_below_ignored : newTarget Config.ref 4096 63 = 4096 := by decide
/-- V-SM-9: the gap of 1032192 above the target. -/
theorem test_smoother_down : newEff Config.ref 64 1048576 = 1046103 := by decide

/-! ## DOUT -/

/-- The REF state of the V-FIR vectors with `eff`, element 116 = `x` and element 117 = `y`. -/
def firState (eff x y : Word) : State :=
  { refInit with
    wpFb := 100, eff := eff
    mem := (Memory.setWord [] (0x20020000 + 4 * 116) x).setWord (0x20020000 + 4 * 117) y }

/-- V-FIR-5: 1 + 14/16, the selector truncates. -/
theorem test_dout_selector_truncates :
    after .dout (firState 0x107F 0x01000000 0x03000000) (fun t => (t.responses, t.bus.length)) =
      some ([⟨false, 0x01E00000⟩], 8) := by decide
/-- V-FIR-8: signed product and floor. -/
theorem test_dout_signed :
    after .dout (firState 0x1010 0xFF000000 0) (fun t => t.responses) = some [⟨false, 0xFF100000⟩] := by decide

/-! ## ROUT -/

/-- Program P2, tick 6: 7 * 0 + 3 * 1. -/
theorem test_rout :
    after .rout tstRun (fun t => t.responses) = some [⟨false, 0x03000000⟩] := by decide
/-- V-ROUT-4: two contributions of 0x7FFFFFFF wrap at 32 bits. -/
theorem test_rout_wraps :
    after .rout
        { tstRun with
          cfg := { tst with win := Vector.replicate 64 16384 }
          grain0 := ⟨0xC000000, 0x4000000, 1, 13, 4⟩, grain1 := ⟨0x4000000, 0x4000000, 3, 15, 4⟩
          mem := (Memory.setWord [] (0x20000000 + 4 * 2) 0x7FFFFFFF).setWord (0x20000000 + 4 * 14) 0x7FFFFFFF }
        (fun t => t.responses) = some [⟨false, 0xFFFFFFFE⟩] := by decide

/-! ## Window and fixed point -/

/-- V-WIN. -/
theorem test_window_values :
    [0, 107546, 107547, 2 ^ 21, 2 ^ 22 + 2 ^ 21, 2 ^ 27 - 1, 2 ^ 27, 2 ^ 27 + 2 ^ 21, 2 ^ 28 - 107547, 2 ^ 28 - 1].map
        (fun t => (window Config.ref (BitVec.ofNat 28 t)).toInt) =
      [0, 0, 1, 19, 98, 16383, 16384, 16364, 1, 0] := by decide
/-- V-FP-1, V-FP-2. -/
theorem test_asr_floors : asr (-1) 1 = -1 ∧ asr (-3) 1 = -2 := by decide
/-- V-FP-3, V-FP-4, V-FP-6. -/
theorem test_ceilDiv : ceilDiv one 36 = 7456541 ∧ ceilDiv one 3 = 89478486 ∧ ceilDiv one 2048 = 131072 := by decide

/-! ## The step and the host -/

/-- V-EXC-4 through the step: op 7 as the first instruction after reset. -/
theorem test_first_instruction :
    (stateOf (step (State.reset.withFetchWord 8 7))).map (fun t => (t.status, t.responses, t.host)) =
      some (0x10, [⟨true, 4⟩], []) := by decide
/-- R119, I15: the second word of an abandoned PUSH is torn, the first was acknowledged. -/
theorem test_abandoned_push :
    (stateOf (beginCommand (.push 0x01000000 0x02000000) 1 0 (some 0xAB000000) tstInit)).map
        (fun t => (t.busy, t.mem, t.responses)) =
      some (true, [(0x2000003F, 0x01), (0x2000007F, 0xAB)], []) := by decide
/-- R26, R117: an abandoned ROUT at P2's tick 6 completed the read of slot 0, element 9, and not that of slot 1. -/
theorem test_abandoned_rout_read :
    (stateOf (beginCommand .rout 1 0 (some 5) tstRun)).map (fun t => (t.busy, t.bus, t.responses)) =
      some (true, [.read 0x20000024 0x07000000], []) := by decide
/-- R126 duty 1: the last byte of the FB region after INIT. -/
theorem test_host_write_in_region : stateOf (hostWrite 0x2000007F 1 tstInit) = none := by decide
/-- R43 item 3: no host access while a command is in progress, before INIT and outside the regions too. -/
theorem test_host_access_during_command :
    stateOf (hostWrite 0 1 { State.reset with busy := true }) = none ∧
    stateOf (hostRead 0 { tstInit with busy := true }) = none := by decide

/-! ## The assembler (R55, R56) -/

/-- 41_ring W1's line. -/
theorem test_asm_push :
    assembleText ['P', 'U', 'S', 'H', ' ', 'q', '(', '1', '.', '0', ')', ',', ' ', 'q', '(', '-', '0', '.', '5', ')'] =
      .ok [⟨3, 0x01000000, 0xFF800000⟩] := by decide
/-- R55: a comment, a negative decimal; R56: an omitted operand is 0. -/
theorem test_asm_tick :
    assembleText ['T', 'I', 'C', 'K', ' ', '0', 'x', '1', 'f', ',', '-', '1', ' ', ';', 'x'] =
      .ok [⟨3, 0x1F, 0xFFFFFFFF⟩, ⟨4, 0, 0⟩] := by decide

/-- Log entry 14: an operand left blank after a comma is no operand. -/
theorem test_asm_blank_operand : assembleText ['I', 'N', 'I', 'T', ' ', '8', ','] = .error .notAnOperand := by decide

/-! ## Witnesses: for every statement with hypotheses, data that meet all of them, each clause at a boundary -/

/-- The invariant holds of P2's state after tick 6. -/
theorem tstRun_inv : tstRun.Inv := by decide
/-- The invariant holds after INIT, with a fresh grain engine. -/
theorem tstInit_inv : tstInit.Inv := by decide
theorem reset_inv : State.reset.Inv := by decide
theorem tst_accepted : tst.Accepted := by decide
theorem tstRun_basesOk : basesOk tstRun.cfg tstRun.baseIn.toNat tstRun.baseFb.toNat = true := by decide
theorem tstRun_canonical : Memory.Canonical tstRun.mem := by decide
theorem tstRun_initDone : tstRun.initDone = true := by decide

/-- A command that answers, for the statements that begin `exec i s = next t`. -/
theorem nop_answers : exec .nop tstRun = .next (respond false 0 tstRun) := rfl

/-- A state with moves of the host. -/
def withMoves (moves : List HostMove) (s : State) : State := { s with host := moves }

theorem witness_BeatsAndCommandsRoundTrip :
    (Instr.init 0 0xFFFFFFFF).wellFormed = true ∧ 2 ^ 67 - 1 < 2 ^ 67 ∧ 2 ^ 67 ≤ 2 ^ 67 := by decide

theorem witness_StepRunsTheDecodedCommand :
    let s := withMoves [.beat ⟨7, 0, 0⟩] tstRun
    s.cfg.Accepted ∧ s.busy = false ∧ s.host = .beat ⟨7, 0, 0⟩ :: [] := by decide

theorem witness_EachCommandRespondsOnce : ∃ t, exec .nop tstRun = .next t := ⟨_, nop_answers⟩

/-- Each of the three conditions of R7, off by one, and a failure of R6 alone. -/
theorem witness_UnacceptedConfigurationIsRefused :
    ({ tst with capFbLog2 := 3, maxGrainSize := 7 }.capFb < 7 + tst.taps / 2) ∧
    (tst.minGrainSize < { tst with taps := 6 }.taps / 2) ∧
    ({ tst with capInLog2 := 3 }.capIn < tst.maxGrainSize + 1) ∧
    ¬ { tst with smoothShift := 33 }.Accepted := by decide

theorem witness_CoreHoldsItsStateBetweenCommands :
    tstRun.cfg.Accepted ∧ tstRun.host = [] ∧ (withMoves [.wait] tstRun).host = .wait :: [] := by decide

theorem witness_EveryCommandHasAResult : tstRun.RegionsOk := tstRun_inv.2.2.1

/-- The topmost word of the address space. -/
theorem witness_WordAccessesAreLittleEndian :
    Memory.Canonical tstRun.mem ∧ (2 ^ 32 - 4) % 4 = 0 ∧ (2 ^ 32 - 4) + 3 < 2 ^ 32 := by decide

theorem witness_CanonicalMemoriesAreEqualWhenTheyReadAlike :
    Memory.Canonical tstRun.mem ∧ Memory.Canonical tstRun.mem ∧
      ∀ x : Nat, Memory.byte tstRun.mem x = Memory.byte tstRun.mem x :=
  ⟨tstRun_canonical, tstRun_canonical, fun _ => rfl⟩

theorem witness_EveryStepKeepsTheMemoryCanonical :
    Memory.Canonical tstRun.mem ∧ step tstRun = .next tstRun := ⟨tstRun_canonical, step_of_no_move tst_accepted rfl⟩

/-- PUSH, DOUT and ROUT answer at P2's state, ROUT with both slots Active, and before INIT. -/
theorem witness_EachCommandMakesItsAccessesInOrder :
    (stateOf (exec (.push 1 2) tstRun)).isSome = true ∧ (stateOf (exec .dout tstRun)).isSome = true ∧
    (stateOf (exec .rout tstRun)).isSome = true ∧ 0 < tstRun.grain0.phase.toInt ∧ 0 < tstRun.grain1.phase.toInt ∧
    (stateOf (exec .rout tstInit)).isSome = true ∧ ¬ 0 < tstInit.grain0.phase.toInt ∧
    (stateOf (exec .dout State.reset)).isSome = true ∧ State.reset.initDone = false := by decide

theorem witness_OnlyTheNamedCommandsWriteEachRegister :
    exec .nop tstRun = .next (respond false 0 tstRun) ∧ (∀ a b, Instr.nop ≠ .init a b) ∧
      (∀ a b, Instr.nop ≠ .push a b) ∧ (∀ a, Instr.nop ≠ .update a) ∧ Instr.nop ≠ .reset :=
  ⟨rfl, by simp, by simp, by simp, by simp⟩

theorem witness_FaultsChangeStatusAndResponseOnly :
    exec .reserved7 tstRun = .next (raiseFault .illegalOp tstRun) ∧
      (raiseFault .illegalOp tstRun).responses = tstRun.responses ++ [⟨true, 4⟩] ∧ (4 : Word).toNat ≤ 4 :=
  ⟨rfl, rfl, by decide⟩

theorem witness_StatusBitsAreSticky :
    step tstRun = .next tstRun ∧ ∀ rest, tstRun.host ≠ .powerOnReset :: rest :=
  ⟨step_of_no_move tst_accepted rfl, by intro rest; simp [tstRun, tstInit, State.launch]⟩

/-- Power-on reset in the middle of a command. -/
theorem witness_PowerOnResetSetsEveryRegister :
    let s := { withMoves [.powerOnReset] tstRun with busy := true }
    s.cfg.Accepted ∧ s.host = .powerOnReset :: [] := by decide

/-- No write, one write and both writes acknowledged. -/
theorem witness_AbandonedPushWritesOnlyItsWords :
    ∀ acks ∈ [0, 1, 2],
      let s := withMoves [.beginBeat (encode (.push 1 2)) acks 0 (some 3), .powerOnReset] tstRun
      s.cfg.Accepted ∧ Memory.Canonical s.mem ∧ s.busy = false ∧ s.initDone = true ∧
        basesOk s.cfg s.baseIn.toNat s.baseFb.toNat = true ∧
        s.host = .beginBeat (encode (.push 1 2)) acks 0 (some 3) :: .powerOnReset :: [] := by decide

/-- The first and the last byte of the regions, the bytes on either side, and a byte of a region before INIT. -/
theorem witness_HostAccessesMemoryOnlyWithinItsDuties :
    let s := withMoves [.hostWrite 0x20000000 1] tstRun
    let u := withMoves [.hostWrite 0x20000000 1] State.reset
    s.cfg.Accepted ∧ s.host = .hostWrite 0x20000000 1 :: [] ∧ s.initDone = true ∧ s.busy = false ∧ Memory.Canonical s.mem ∧
      ((s.baseIn.toNat ≤ 0x20000000 ∧ 0x20000000 < s.baseIn.toNat + 4 * s.cfg.capIn) ∧
        (s.baseFb.toNat ≤ 0x2000007F ∧ 0x2000007F < s.baseFb.toNat + 4 * s.cfg.capFb)) ∧
      (¬ (s.baseFb.toNat ≤ 0x20000080 ∧ 0x20000080 < s.baseFb.toNat + 4 * s.cfg.capFb) ∧
        ¬ (s.baseIn.toNat ≤ 0x1FFFFFFF ∧ 0x1FFFFFFF < s.baseIn.toNat + 4 * s.cfg.capIn)) ∧
      u.cfg.Accepted ∧ u.initDone = false ∧ u.busy = false ∧ u.host = .hostWrite 0x20000000 1 :: [] ∧
      Memory.Canonical u.mem := by
  refine ⟨?_, rfl, ?_, rfl, ?_, ?_, ?_, ?_, ?_, rfl, rfl, ?_⟩ <;> decide

/-- A write and a read while a command is in progress, before INIT, and a read between commands. -/
theorem witness_HostAccessesMemoryOnlyWithinItsDuties_busy :
    let s := { withMoves [.hostWrite 0 1] State.reset with busy := true }
    let u := { withMoves [.hostRead 0] State.reset with busy := true }
    let r := withMoves [.hostRead 0x20000000] tstRun
    (s.cfg.Accepted ∧ s.host = .hostWrite 0 1 :: [] ∧ s.busy = true ∧ s.initDone = false) ∧
      (u.cfg.Accepted ∧ u.host = .hostRead 0 :: [] ∧ u.busy = true) ∧
      (r.cfg.Accepted ∧ r.host = .hostRead 0x20000000 :: [] ∧ r.busy = false) := by
  refine ⟨⟨?_, rfl, rfl, ?_⟩, ⟨?_, rfl, rfl⟩, ?_, rfl, rfl⟩ <;> decide

/-- V-CTL-3's operands: the IN region ends exactly at 2^32 and the FB region lies below it. -/
theorem witness_InitBindsTheRings :
    let s := State.reset
    let a : Word := 0xFFFE0000
    let b : Word := 0xFFFC0000
    s.initDone = false ∧ a.toNat % 4 = 0 ∧ b.toNat % 4 = 0 ∧ a.toNat + 4 * s.cfg.capIn ≤ 2 ^ 32 ∧
      b.toNat + 4 * s.cfg.capFb ≤ 2 ^ 32 ∧
      (a.toNat + 4 * s.cfg.capIn ≤ b.toNat ∨ b.toNat + 4 * s.cfg.capFb ≤ a.toNat) := by decide

/-- A second INIT, and each of the five failing checks by one byte or one word. -/
theorem witness_InitBindsTheRings_faults :
    let s := State.reset
    refInit.initDone = true ∧ s.initDone = false ∧
      (0x20000001 : Word).toNat % 4 ≠ 0 ∧ (0x20020002 : Word).toNat % 4 ≠ 0 ∧
      2 ^ 32 < (0xFFFE0004 : Word).toNat + 4 * s.cfg.capIn ∧ 2 ^ 32 < (0xFFFE0004 : Word).toNat + 4 * s.cfg.capFb ∧
      ¬ ((0x20000000 : Word).toNat + 4 * s.cfg.capIn ≤ (0x2001FFFC : Word).toNat ∨
        (0x2001FFFC : Word).toNat + 4 * s.cfg.capFb ≤ (0x20000000 : Word).toNat) := by decide

/-- Op 7, a command before INIT, a second INIT, a bad base, an INIT that succeeds and an UPDATE that spawns an empty grain all
answer. -/
theorem witness_OneCauseByPriority :
    (stateOf (exec .reserved7 State.reset)).isSome = true ∧ (stateOf (exec (.update 64) State.reset)).isSome = true ∧
    (stateOf (exec (.init 0 0) refInit)).isSome = true ∧ (stateOf (exec (.init 0 0) State.reset)).isSome = true ∧
    (stateOf (exec (.init 0x20000000 0x20020000) State.reset)).isSome = true ∧
    (stateOf (exec (.update 0) { tstInit with target := 1, eff := 767 })).isSome = true := by decide

theorem witness_ResetRederivesTheEngine : tstRun.initDone = true ∧ State.reset.initDone = false := by decide

theorem witness_ResetIsIdempotentAndSilent : tstRun.initDone = true := tstRun_initDone

theorem witness_CommandsBeforeInitFault :
    State.reset.initDone = false ∧ ∀ i ∈ [Instr.reset, .push 1 2, .update 3, .dout, .rout],
      (i = .reset ∨ (∃ a b, i = .push a b) ∨ (∃ a, i = .update a) ∨ i = .dout ∨ i = .rout) :=
  ⟨by decide, by simp⟩

/-- With a pointer at 0, which wraps, and before INIT. -/
theorem witness_PushStoresBothSamples :
    tstInit.initDone = true ∧ basesOk tstInit.cfg tstInit.baseIn.toNat tstInit.baseFb.toNat = true ∧
      Memory.Canonical tstInit.mem ∧ tstInit.wpIn = 0 ∧ State.reset.initDone = false := by decide

/-- Ages on either side of the number of pushes, and the last of the ring. -/
theorem witness_RingsHoldThePushHistory :
    tstRun.initDone = true ∧ basesOk tstRun.cfg tstRun.baseIn.toNat tstRun.baseFb.toNat = true ∧
      Memory.Canonical tstRun.mem ∧ 0 < [(1, 2), ((3 : Word), (4 : Word))].length ∧
      ¬ 2 < [(1, 2), ((3 : Word), (4 : Word))].length ∧ 15 < tstRun.cfg.capIn := by decide

/-- An UPDATE that spawns (at TST's fresh engine) and one that does not (at P2's tick 6). -/
theorem witness_PushAndUpdateOrderMattersOnlyToReadStart :
    (tstInit.Inv ∧ tstInit.initDone = true ∧ after (.update 8) tstInit (fun t => t.origin) = some .one) ∧
      tstRun.Inv ∧ tstRun.initDone = true ∧ after (.update 8) tstRun (fun t => t.origin) = some tstRun.origin :=
  ⟨⟨tstInit_inv, by decide, by decide⟩, tstRun_inv, by decide, by decide⟩

/-- Requests at both bounds and one beyond each. -/
theorem witness_RequestInRangeBecomesTheTarget :
    tstRun.initDone = true ∧ (tstRun.cfg.minGrainSize : Int) ≤ (2 : Word).toInt ∧
      (8 : Word).toInt ≤ (tstRun.cfg.maxGrainSize : Int) ∧ (1 : Word).toInt < (tstRun.cfg.minGrainSize : Int) ∧
      (tstRun.cfg.maxGrainSize : Int) < (9 : Word).toInt ∧
      (0xFFFFFFFF : Word).toInt < (tstRun.cfg.minGrainSize : Int) := by decide

/-- A state in the delay's range whose EFF lies below, above and at the target an UPDATE leaves. -/
theorem witness_SmootherLeavesTheScaledDistance :
    let s := { tstRun with eff := 1024 }
    s.cfg.Accepted ∧ s.DelayOk ∧ s.initDone = true ∧
      s.eff.toNat < (newTarget s.cfg s.target 8).toNat * 256 ∧ (newTarget s.cfg s.target 2).toNat * 256 < s.eff.toNat ∧
      s.eff.toNat = (newTarget s.cfg s.target 4).toNat * 256 := by decide

theorem witness_SmootherNeverOvershoots :
    let s := { tstRun with eff := 2047 }
    s.cfg.Accepted ∧ s.DelayOk ∧ s.initDone = true ∧ s.eff.toNat < (newTarget s.cfg s.target 8).toNat * 256 := by decide

theorem witness_SmootherReachesTheTarget : tstRun.Inv ∧ tstRun.initDone = true := ⟨tstRun_inv, tstRun_initDone⟩

/-- The largest distance. -/
theorem witness_SmootherStepIsBounded :
    let s := { tstRun with eff := 512 }
    s.cfg.Accepted ∧ s.DelayOk ∧ s.initDone = true ∧
      ((newTarget s.cfg s.target 8).toNat * 256 - s.eff.toNat) = (s.cfg.maxGrainSize - s.cfg.minGrainSize) * 256 := by
  decide

theorem witness_SmootherIsSymmetric :
    let s := { tstRun with eff := 1023 }
    let s' := { tstRun with eff := 1025 }
    s.cfg.Accepted ∧ s'.cfg = s.cfg ∧ s'.target = s.target ∧ s.DelayOk ∧ s'.DelayOk ∧ s.initDone = true ∧
      s'.initDone = true ∧ s.eff.toNat + 1 = (newTarget s.cfg s.target 4).toNat * 256 ∧
      s'.eff.toNat = (newTarget s.cfg s.target 4).toNat * 256 + 1 := by decide

/-- The origin one LSB above the threshold after the advance. -/
theorem witness_UpdateAdvancesBothSlots :
    let s := { tstRun with grain0 := ⟨0xC000001, 0x4000000, 1, 9, 4⟩ }
    s.initDone = true ∧ (s.cfg.thresh : Int) < ((s.grain s.origin).phase - (s.grain s.origin).step).toInt ∧
      ((s.grain s.origin).phase - (s.grain s.origin).step).toInt = 2 ^ 27 + 1 := by decide

/-- The origin exactly at the threshold after the advance, and the shortest grain, of one sample. -/
theorem witness_UpdateSpawnsAtTheThreshold :
    let s := { tstRun with grain0 := ⟨0xC000000, 0x4000000, 1, 9, 4⟩, eff := 512, target := 2 }
    s.initDone = true ∧ ((s.grain s.origin).phase - (s.grain s.origin).step).toInt ≤ (s.cfg.thresh : Int) ∧
      ((s.grain s.origin).phase - (s.grain s.origin).step).toInt = 2 ^ 27 ∧
      1 ≤ (newEff s.cfg (newTarget s.cfg s.target 2) s.eff).toNat / 2 ^ 9 := by decide

/-- EFF one LSB short of a grain of one sample. -/
theorem witness_EmptyGrainReportsDivZero :
    let s := { tstInit with target := 1, eff := 767 }
    s.initDone = true ∧ ((s.grain s.origin).phase - (s.grain s.origin).step).toInt ≤ (s.cfg.thresh : Int) ∧
      (newEff s.cfg (newTarget s.cfg s.target 0) s.eff).toNat / 2 ^ 9 = 0 ∧
      (newEff s.cfg (newTarget s.cfg s.target 0) s.eff).toNat = 511 := by decide

/-- The shortest length, and one long enough that the last premise fails. -/
theorem witness_StepEndsThePhaseWithinTheLength :
    1 ≤ 1 ∧ 16384 * (16384 - 1) < 2 ^ 28 ∧ ¬ 16385 * (16385 - 1) < 2 ^ 28 := by decide

theorem witness_LaunchMeetsTheInvariant : tst.Accepted ∧ Memory.Canonical tstRun.mem := ⟨tst_accepted, tstRun_canonical⟩

theorem witness_EveryStepKeepsTheInvariant : tstRun.Inv ∧ step tstRun = .next tstRun :=
  ⟨tstRun_inv, step_of_no_move tst_accepted rfl⟩

/-- Before any grain, and two moves on: an INIT and an UPDATE, which spawns. -/
theorem witness_EveryRunKeepsTheRangesOfR32 :
    tst.Accepted ∧ Memory.Canonical tstRun.mem ∧
      (stateOf (Host.Core.run Sys2Proof.core 2
          (State.launch tst tstRun.mem [.beat (encode (.init 0x20000000 0x20000040)), .beat (encode (.update 8))]))).map
        (fun t => (t.origin, t.grain0.step)) = some (.one, 0x4000000) :=
  ⟨tst_accepted, tstRun_canonical, by decide⟩

theorem witness_UpdateLeavesOneOriginAndOnePredecessor : tstRun.Inv ∧ tstRun.initDone = true :=
  ⟨tstRun_inv, tstRun_initDone⟩

/-- P2 after the UPDATE of tick 7: the next UPDATE spawns. -/
theorem witness_PredecessorIsInactiveWhenRespawned :
    let s := { tstRun with grain0 := ⟨0xC000000, 0x4000000, 1, 9, 4⟩, grain1 := ⟨0x4000000, 0x4000000, 3, 11, 4⟩ }
    s.Inv ∧ ((s.grain s.origin).phase - (s.grain s.origin).step).toInt ≤ 2 ^ 27 := by decide

theorem witness_AdvanceNeverWraps : tstRun.Inv := tstRun_inv

theorem witness_ActiveGrainReadsStayInTheHistory :
    tstRun.Inv ∧ (tstRun.grain .zero).active = true ∧ (tstRun.grain .one).active = true ∧ tstRun.TickAges :=
  ⟨tstRun_inv, by decide, by decide, fun g => by cases g <;> decide⟩

/-- A tick that spawns, one that does not, and ages of `2 * COUNTER`. -/
theorem witness_TickPlaysTheHistoryBackwards :
    tstInit.Inv ∧ tstInit.initDone = true ∧ tstRun.Inv ∧ tstRun.initDone = true ∧ tstRun.TickAges :=
  ⟨tstInit_inv, by decide, tstRun_inv, by decide, fun g => by cases g <;> decide⟩

theorem witness_DoutIsTheInnerProduct :
    tstRun.initDone = true ∧ basesOk tstRun.cfg tstRun.baseIn.toNat tstRun.baseFb.toNat = true ∧
      State.reset.initDone = false := by decide

theorem witness_SelectorNamesASetOfTheBank : tst.Accepted := tst_accepted

/-- The first and the last tap. -/
theorem witness_TapAgesStayInTheRing : tstRun.Inv ∧ 0 < tstRun.cfg.taps ∧ 3 < tstRun.cfg.taps := by decide

/-- Zeroed FB memory and the bank LIN, whose sets sum to unity. -/
theorem witness_DoutOfAConstantIsTheConstant :
    tstRun.initDone = true ∧ basesOk tstRun.cfg tstRun.baseIn.toNat tstRun.baseFb.toNat = true ∧
      (∀ j : Nat, j < tstRun.cfg.taps → tstRun.ringWord .fb (firBase tstRun + j) = 0) ∧
      (∑ j ∈ Finset.range tstRun.cfg.taps,
        (coefPort tstRun.cfg (firSelector tstRun.cfg tstRun.eff) (BitVec.ofNat 6 j)).toInt) =
          ((2 ^ tstRun.cfg.coefFrac : Nat) : Int) ∧
      -(2 ^ 63 : Int) ≤ (0 : Word).toInt * ((2 ^ tstRun.cfg.coefFrac : Nat) : Int) ∧
      (0 : Word).toInt * ((2 ^ tstRun.cfg.coefFrac : Nat) : Int) < 2 ^ 63 := by decide

theorem witness_RoutSumsTheActiveGrains :
    tstRun.initDone = true ∧ basesOk tstRun.cfg tstRun.baseIn.toNat tstRun.baseFb.toNat = true ∧
      0 < tstRun.grain0.phase.toInt ∧ ¬ 0 < tstInit.grain0.phase.toInt ∧ State.reset.initDone = false := by decide

/-- The largest fraction. -/
theorem witness_WindowInterpolatesAdjacentEntries : 2 ^ 22 - 1 < 2 ^ 22 := by decide

theorem witness_WindowHalvesSumToOne :
    (∀ i : Fin 64, (tst.win.get i).toInt + (tst.win.get (i + 32)).toInt = 16384) ∧ 2 ^ 27 - 1 < 2 ^ 27 := by decide

theorem witness_WindowIsSymmetric :
    (∀ i : Fin 64, tst.win.get i = tst.win.get (-i)) ∧ 0 < 1 ∧ 2 ^ 28 - 1 < 2 ^ 28 := by decide

theorem witness_DefaultWindowPeaksAtOneHalf : tst.win = hannTable ∧ 2 ^ 28 - 1 < 2 ^ 28 := ⟨rfl, by decide⟩

theorem witness_RoutStaysBounded :
    tstRun.initDone = true ∧ basesOk tstRun.cfg tstRun.baseIn.toNat tstRun.baseFb.toNat = true ∧
      (∀ i : Fin 64, 0 ≤ (tstRun.cfg.win.get i).toInt ∧ (tstRun.cfg.win.get i).toInt ≤ 16384) ∧
      (∀ g : Slot, (tstRun.grain g).active = true →
        (tstRun.ringWord .inp (grainReadIndex (tstRun.grain g))).toInt.natAbs ≤ 7 * 2 ^ 24) :=
  ⟨by decide, by decide, by decide, fun g => by cases g <;> decide⟩

/-- Slot 0 Spawned, slot 1 half a period behind, on memory with nothing listed. -/
theorem witness_OverlapAddIsFlat :
    let s := { tstRun with mem := [] }
    s.initDone = true ∧ basesOk s.cfg s.baseIn.toNat s.baseFb.toNat = true ∧
      (∀ i : Fin 64, (s.cfg.win.get i).toInt + (s.cfg.win.get (i + 32)).toInt = 16384) ∧
      (∀ g : Slot, 0 < (s.grain g).phase.toInt ∧ (s.grain g).phase.toInt ≤ 2 ^ 28 ∧
        s.ringWord .inp (grainReadIndex (s.grain g)) = 0) ∧
      s.grain0.phase.toInt = s.grain1.phase.toInt + 2 ^ 27 :=
  ⟨by decide, by decide, by decide, fun g => by cases g <;> decide, by decide⟩

theorem witness_PseudoInstructionsExpandInOrder :
    asmPattern (.q (-5) 1) = .ok 0xFF800000 ∧ asmPattern (.hex 0) = .ok 0 ∧ asmPattern (.dec 8) = .ok 8 ∧
      tstRun.cfg.Accepted ∧ tstRun.initDone = true := by decide

/-- No read, the first and all of them acknowledged, for DOUT's four and for ROUT's two. -/
theorem witness_AbandonedOutputLeavesItsReadsOnThePort :
    ∀ i ∈ [Instr.dout, .rout], ∀ acks ∈ [0, 1, 4],
      let s := withMoves [.beginBeat (encode i) acks acks none, .powerOnReset] tstRun
      s.cfg.Accepted ∧ s.busy = false ∧ s.initDone = true ∧ basesOk s.cfg s.baseIn.toNat s.baseFb.toNat = true ∧
        (i = .dout ∨ i = .rout) ∧ s.host = .beginBeat (encode i) acks acks none :: .powerOnReset :: [] := by decide

end Sys2Proof.Tests
end

section
/-! PROOF. The scope statements (00_scope): every command answers and responds once, and only an accepted configuration
has a machine. -/

namespace Sys2Proof.Machine

/-! What the commands that touch a port can answer -/

/-- Two computations in sequence answer exactly where the first answers and the second answers from there. -/
theorem except_bind_eq_ok {α β : Type} {x : Except Fault α} {f : α → Except Fault β} {y : β} :
    (x >>= f) = .ok y ↔ ∃ a, x = .ok a ∧ f a = .ok y := by
  cases x <;> simp [bind, Except.bind]

/-- PUSH's effect gives one response: the two ring writes give none (42_ring_buffer R75). -/
theorem pushBoth_responses {a b : Word} {s t : State} (h : pushBoth a b s = .ok t) :
    t.responses = s.responses ++ [⟨false, 0⟩] := by
  obtain ⟨u, hu, h⟩ := except_bind_eq_ok.mp h
  obtain ⟨v, hv, h⟩ := except_bind_eq_ok.mp h
  obtain ⟨-, rfl⟩ := memWrite_ok hu
  obtain ⟨-, rfl⟩ := memWrite_ok hv
  cases h
  rfl

/-- DOUT's effect is its response after reads that change the two traces only (44_fractional_delay R87). -/
theorem delayOutput_ok {s t : State} (h : delayOutput s = .ok t) :
    ∃ y bus coefReads, t = respond false y { s with bus := bus, coefReads := coefReads } := by
  obtain ⟨⟨y, u⟩, hu, h⟩ := except_bind_eq_ok.mp h
  obtain ⟨⟨acc, v⟩, hv, hu⟩ := except_bind_eq_ok.mp hu
  obtain ⟨bus, coefReads, rfl⟩ := firTaps_frame hv
  cases hu
  cases h
  exact ⟨_, bus, coefReads, rfl⟩

/-- ROUT's effect is its response after reads that change the bus trace only (45_grain_engine R95). -/
theorem reverseOutput_ok {s t : State} (h : reverseOutput s = .ok t) :
    ∃ y bus, t = respond false y { s with bus := bus } := by
  obtain ⟨⟨sum, u⟩, hu, h⟩ := except_bind_eq_ok.mp h
  obtain ⟨⟨sum', v⟩, hv, h⟩ := except_bind_eq_ok.mp h
  obtain ⟨_, rfl⟩ := addGrain_frame hu
  obtain ⟨bus, rfl⟩ := addGrain_frame hv
  cases h
  exact ⟨sum', bus, rfl⟩

/-- UPDATE's four steps give no response (43_delay_smoother R80). -/
@[simp] theorem updateEngine_responses (a : Word) (s : State) : (updateEngine a s).responses = s.responses := by
  simp [updateEngine]

/-! One response for each command -/

/-- A state answers `s`'s command where it has exactly one response more than `s` (30_encoding R51). -/
def RespondsOnce (s t : State) : Prop := ∃ r : Response, t.responses = s.responses ++ [r]

theorem respondsOnce_respond (e : Bool) (d : Word) {s u : State} (h : u.responses = s.responses) :
    RespondsOnce s (respond e d u) := ⟨⟨e, d⟩, by simp [h]⟩

theorem respondsOnce_raiseFault (c : Cause) {s u : State} (h : u.responses = s.responses) :
    RespondsOnce s (raiseFault c u) := ⟨⟨true, BitVec.ofNat 32 c.code⟩, by simp [h]⟩

/-- Behind the dispatch's check, a command responds once if what it runs does: cause 1 is a response too
(41_control R67). -/
theorem respondsOnce_whenInitDone {s t : State} {r : Result} (h : whenInitDone s r = .next t)
    (hr : r = .next t → RespondsOnce s t) : RespondsOnce s t := by
  obtain ⟨-, rfl⟩ | ⟨-, h⟩ := whenInitDone_cases h
  · exact respondsOnce_raiseFault _ rfl
  · exact hr h

theorem execInit_respondsOnce {a b : Word} {s t : State} (h : execInit a b s = .next t) : RespondsOnce s t := by
  obtain ⟨-, rfl⟩ | ⟨-, -, rfl⟩ | ⟨-, -, rfl⟩ := execInit_cases h
  · exact respondsOnce_raiseFault _ rfl
  · exact respondsOnce_raiseFault _ rfl
  · exact respondsOnce_respond _ _ rfl

theorem execUpdate_respondsOnce {a : Word} {s t : State} (h : execUpdate a s = .next t) : RespondsOnce s t := by
  refine respondsOnce_whenInitDone h fun h => ?_
  split at h
  · cases h
    exact respondsOnce_raiseFault _ (updateEngine_responses a s)
  · cases h
    exact respondsOnce_respond _ _ (updateEngine_responses a s)

/-- Settles O6, by the command: each meaning ends in `respond` or in `raiseFault`, and nothing before it responds. -/
theorem eachCommandRespondsOnce : Obligations.EachCommandRespondsOnce := by
  intro i s t h
  change RespondsOnce s t
  cases i with
  | nop =>
    cases h
    exact respondsOnce_respond _ _ rfl
  | init a b => exact execInit_respondsOnce h
  | reset =>
    refine respondsOnce_whenInitDone h fun h => ?_
    cases h
    exact respondsOnce_respond _ _ rfl
  | push a b =>
    exact respondsOnce_whenInitDone h fun h => ⟨_, pushBoth_responses (ofExcept_eq_next.mp h)⟩
  | update a => exact execUpdate_respondsOnce h
  | dout =>
    refine respondsOnce_whenInitDone h fun h => ?_
    obtain ⟨y, _, _, rfl⟩ := delayOutput_ok (ofExcept_eq_next.mp h)
    exact respondsOnce_respond _ y rfl
  | rout =>
    refine respondsOnce_whenInitDone h fun h => ?_
    obtain ⟨y, _, rfl⟩ := reverseOutput_ok (ofExcept_eq_next.mp h)
    exact respondsOnce_respond _ y rfl
  | reserved7 =>
    cases h
    exact respondsOnce_raiseFault _ rfl

/-! Every command completes: with checked bases no ring access fails (20_memory R37) -/

/-- DOUT's loop answers, whatever its taps: each turn reads one sample and keeps the bases. -/
theorem firTaps_of_basesOk (base : Int) (sel : BitVec 8) (js : List Nat) (acc : BitVec 64) {s : State}
    (h : basesOk s.cfg s.baseIn.toNat s.baseFb.toNat = true) :
    ∃ acc' t, firTaps base sel js acc s = .ok (acc', t) := by
  induction js generalizing acc s with
  | nil => exact ⟨acc, s, rfl⟩
  | cons j js ih =>
    simp only [firTaps, ringRead_of_basesOk h, bind, Except.bind]
    exact ih _ (by exact h)

theorem delayOutput_of_basesOk {s : State} (h : basesOk s.cfg s.baseIn.toNat s.baseFb.toNat = true) :
    ∃ t, delayOutput s = .ok t := by
  obtain ⟨acc, t, ht⟩ := firTaps_of_basesOk (firBase s) (firSelector s.cfg s.eff) (List.range s.cfg.taps) 0 h
  exact ⟨_, except_bind_eq_ok.mpr ⟨_, except_bind_eq_ok.mpr ⟨_, ht, rfl⟩, rfl⟩⟩

/-- One slot's turn in ROUT's loop answers, Active or not. -/
theorem addGrain_of_basesOk (g : Grain) (sum : Word) {s : State}
    (h : basesOk s.cfg s.baseIn.toNat s.baseFb.toNat = true) : ∃ sum' t, addGrain g sum s = .ok (sum', t) := by
  cases hg : g.active with
  | true => exact ⟨_, _, addGrain_active hg sum h⟩
  | false => exact ⟨_, _, addGrain_inactive hg sum s⟩

theorem reverseOutput_of_basesOk {s : State} (h : basesOk s.cfg s.baseIn.toNat s.baseFb.toNat = true) :
    ∃ t, reverseOutput s = .ok t := by
  obtain ⟨sum, u, hu⟩ := addGrain_of_basesOk s.grain0 0 h
  obtain ⟨bus, rfl⟩ := addGrain_frame hu
  obtain ⟨sum', t, ht⟩ := addGrain_of_basesOk s.grain1 sum (s := { s with bus := bus }) h
  exact ⟨_, except_bind_eq_ok.mpr ⟨_, hu, except_bind_eq_ok.mpr ⟨_, ht, rfl⟩⟩⟩

/-- The dispatch's check answers where INIT is not done, so a command answers if what it runs answers once INIT is done. -/
theorem whenInitDone_answers {s : State} {r : Result} (h : s.initDone = true → ∃ t, r = .next t) :
    ∃ t, whenInitDone s r = .next t := by
  cases hd : s.initDone with
  | false => exact ⟨_, whenInitDone_of_not_initDone hd r⟩
  | true => rw [whenInitDone_of_initDone hd]; exact h hd

theorem ofExcept_answers {x : Except Fault State} (h : ∃ t, x = .ok t) : ∃ t, Result.ofExcept x = .next t :=
  h.imp fun _ => ofExcept_eq_next.mpr

theorem execInit_answers (a b : Word) (s : State) : ∃ t, execInit a b s = .next t := by
  unfold execInit
  split_ifs <;> exact ⟨_, rfl⟩

theorem execUpdate_answers (a : Word) (s : State) : ∃ t, execUpdate a s = .next t := by
  refine whenInitDone_answers fun _ => ?_
  split_ifs <;> exact ⟨_, rfl⟩

/-- Settles O9, by the command: only PUSH, DOUT and ROUT can fail, at a ring access, and they make one only once INIT is
done, when the bases are checked. -/
theorem everyCommandHasAResult : Obligations.EveryCommandHasAResult := by
  intro i s hs
  cases i with
  | nop => exact ⟨_, rfl⟩
  | init a b => exact execInit_answers a b s
  | reset => exact whenInitDone_answers fun _ => ⟨_, rfl⟩
  | push a b => exact whenInitDone_answers fun hd => ofExcept_answers ⟨_, pushBoth_of_basesOk (hs hd) a b⟩
  | update a => exact execUpdate_answers a s
  | dout => exact whenInitDone_answers fun hd => ofExcept_answers (delayOutput_of_basesOk (hs hd))
  | rout => exact whenInitDone_answers fun hd => ofExcept_answers (reverseOutput_of_basesOk (hs hd))
  | reserved7 => exact ⟨_, rfl⟩

/-! The step -/

/-- Settles O5: the host's move is taken, and a beat offered to a ready port is its command's `exec`. -/
theorem stepRunsTheDecodedCommand : Obligations.StepRunsTheDecodedCommand := by
  intro s b rest ha hb hh
  calc step s = hostMove (.beat b) { s with host := rest } := step_of_move ha hh
    _ = exec (decode b) { s with host := rest } := hostMove_beat (by exact hb) b

/-- The three conditions of 00_scope R7 are among those of an accepted configuration. -/
theorem fits_of_accepted {c : Config} (h : c.Accepted) :
    c.OldestTapFits ∧ c.NewestTapFits ∧ c.OldestGrainReadFits := by
  obtain ⟨-, -, -, -, -, -, -, hfits⟩ := h
  exact hfits

/-- Settles O7: a configuration that fails a condition of R7 is not accepted, and `step` refuses those that are not. -/
theorem unacceptedConfigurationIsRefused : Obligations.UnacceptedConfigurationIsRefused := by
  refine fun s => ⟨fun hfail => step_of_not_accepted fun ha => ?_, step_of_not_accepted⟩
  obtain ⟨htap, hnew, hgrain⟩ := fits_of_accepted ha
  obtain h | h | h := hfail
  · exact absurd htap h.not_ge
  · exact absurd hnew h.not_ge
  · exact absurd hgrain h.not_ge

end Sys2Proof.Machine
end

section
/-! PROOF. What a command and a step can do at all, one case per kind of effect, and what follows from it alone: which
registers each command writes (10_state R31) and that STATUS bits stick (R16, 60_exceptions R110). -/

namespace Sys2Proof.Machine

/-! UPDATE's steps leave every register but the engine's -/

@[simp] theorem updateEngine_cfg (a : Word) (s : State) : (updateEngine a s).cfg = s.cfg := by simp [updateEngine]
@[simp] theorem updateEngine_status (a : Word) (s : State) : (updateEngine a s).status = s.status := by simp [updateEngine]
@[simp] theorem updateEngine_baseIn (a : Word) (s : State) : (updateEngine a s).baseIn = s.baseIn := by simp [updateEngine]
@[simp] theorem updateEngine_baseFb (a : Word) (s : State) : (updateEngine a s).baseFb = s.baseFb := by simp [updateEngine]
@[simp] theorem updateEngine_wpIn (a : Word) (s : State) : (updateEngine a s).wpIn = s.wpIn := by simp [updateEngine]
@[simp] theorem updateEngine_wpFb (a : Word) (s : State) : (updateEngine a s).wpFb = s.wpFb := by simp [updateEngine]
@[simp] theorem updateEngine_mem (a : Word) (s : State) : (updateEngine a s).mem = s.mem := by simp [updateEngine]
@[simp] theorem updateEngine_busy (a : Word) (s : State) : (updateEngine a s).busy = s.busy := by simp [updateEngine]
@[simp] theorem updateEngine_host (a : Word) (s : State) : (updateEngine a s).host = s.host := by simp [updateEngine]

@[simp] theorem updateEngine_initDone (a : Word) (s : State) : (updateEngine a s).initDone = s.initDone := by
  simp [State.initDone]

@[simp] theorem updateEngine_eff (a : Word) (s : State) : (updateEngine a s).eff = (smooth a s).eff := by
  simp [updateEngine]

@[simp] theorem updateEngine_target (a : Word) (s : State) : (updateEngine a s).target = (smooth a s).target := by
  simp [updateEngine]

/-! Everything a command can do -/

/-- What a command that answers has done to `s`: one constructor per kind of effect. Causes 1 to 4 change STATUS alone, so
every command may have raised one (60_exceptions R106); cause 5 comes after UPDATE's steps (R107). -/
inductive ExecEffect (s : State) : Instr → State → Prop
  | raised {i : Instr} (c : Cause) (hc : c ≠ .div0) : ExecEffect s i (raiseFault c s)
  /-- NOP, DOUT and ROUT change what passed over the ports -/
  | answered {i : Instr} (y : Word) (bus : List BusAccess) (coefReads : List CoefRead) :
      ExecEffect s i (respond false y { s with bus := bus, coefReads := coefReads })
  | bound {a b : Word} (hinit : s.initDone = false) (hbases : basesOk s.cfg a.toNat b.toNat = true) :
      ExecEffect s (.init a b) (respond false 0
        { s with baseIn := a, baseFb := b, wpIn := 0, wpFb := 0, status := setStatusBit s.status 0 })
  | reset : ExecEffect s .reset (respond false 0 (resetEngine s))
  | pushed {a b : Word} (mem : Memory) (bus : List BusAccess) (hmem : s.mem.Canonical → mem.Canonical) :
      ExecEffect s (.push a b) (respond false 0
        { s with wpIn := pushedWp s .inp, wpFb := pushedWp s .fb, mem := mem, bus := bus })
  | updated {a : Word} : ExecEffect s (.update a) (respond false 0 (updateEngine a s))
  | updatedEmpty {a : Word} (hempty : spawnsEmpty (grainAdvance (smooth a s)) = true) :
      ExecEffect s (.update a) (raiseFault .div0 (updateEngine a s))

/-- PUSH's effect: the two masked pointers, two words of memory, two accesses and the response (42_ring_buffer R75). -/
theorem pushBoth_ok {a b : Word} {s t : State} (h : pushBoth a b s = .ok t) :
    ∃ mem bus, (s.mem.Canonical → mem.Canonical) ∧
      t = respond false 0 { s with wpIn := pushedWp s .inp, wpFb := pushedWp s .fb, mem := mem, bus := bus } := by
  obtain ⟨u, hu, h⟩ := except_bind_eq_ok.mp h
  obtain ⟨v, hv, h⟩ := except_bind_eq_ok.mp h
  obtain ⟨hin, rfl⟩ := memWrite_ok hu
  obtain ⟨hfb, rfl⟩ := memWrite_ok hv
  cases h
  exact ⟨_, _, fun hs => canonical_setWord (canonical_setWord hs (accessError_eq_none.mp hin).2 _)
    (accessError_eq_none.mp hfb).2 _, rfl⟩

/-- A command behind the dispatch's check has raised cause 1, or what it runs has its effect (41_control R67). -/
theorem whenInitDone_effect {s t : State} {r : Result} {i : Instr} (h : whenInitDone s r = .next t)
    (hr : r = .next t → ExecEffect s i t) : ExecEffect s i t := by
  obtain ⟨-, rfl⟩ | ⟨-, h⟩ := whenInitDone_cases h
  · exact .raised .notInit (by decide)
  · exact hr h

theorem execInit_effect {a b : Word} {s t : State} (h : execInit a b s = .next t) : ExecEffect s (.init a b) t := by
  obtain ⟨-, rfl⟩ | ⟨-, -, rfl⟩ | ⟨hinit, hbases, rfl⟩ := execInit_cases h
  · exact .raised .reinit (by decide)
  · exact .raised .badBase (by decide)
  · exact .bound hinit hbases

theorem execUpdate_effect {a : Word} {s t : State} (h : execUpdate a s = .next t) : ExecEffect s (.update a) t := by
  refine whenInitDone_effect h fun h => ?_
  split at h
  next hempty =>
    cases h
    exact .updatedEmpty hempty
  next =>
    cases h
    exact .updated

/-- A command that answers has one of the effects of `ExecEffect`. -/
theorem exec_effect {i : Instr} {s t : State} (h : exec i s = .next t) : ExecEffect s i t := by
  cases i with
  | nop =>
    cases h
    exact .answered 0 s.bus s.coefReads
  | init a b => exact execInit_effect h
  | reset =>
    refine whenInitDone_effect h fun h => ?_
    cases h
    exact .reset
  | push a b =>
    refine whenInitDone_effect h fun h => ?_
    obtain ⟨mem, bus, hmem, rfl⟩ := pushBoth_ok (ofExcept_eq_next.mp h)
    exact .pushed mem bus hmem
  | update a => exact execUpdate_effect h
  | dout =>
    refine whenInitDone_effect h fun h => ?_
    obtain ⟨y, bus, coefReads, rfl⟩ := delayOutput_ok (ofExcept_eq_next.mp h)
    exact .answered y bus coefReads
  | rout =>
    refine whenInitDone_effect h fun h => ?_
    obtain ⟨y, bus, rfl⟩ := reverseOutput_ok (ofExcept_eq_next.mp h)
    exact .answered y bus s.coefReads
  | reserved7 =>
    cases h
    exact .raised .illegalOp (by decide)

/-- Settles O14, by the effect: a command named in R31's column is excused by its own name, and every other effect leaves
the register. -/
theorem onlyTheNamedCommandsWriteEachRegister : Obligations.OnlyTheNamedCommandsWriteEachRegister := by
  intro i s t h
  cases exec_effect h with
  | raised c hc =>
    exact ⟨fun _ => ⟨raiseFault_initDone c s, rfl, rfl⟩, fun _ _ => ⟨rfl, rfl⟩, fun _ _ => ⟨rfl, rfl, rfl, rfl, rfl⟩,
      fun _ _ => rfl, rfl, rfl, rfl⟩
  | answered y bus coefReads =>
    exact ⟨fun _ => ⟨rfl, rfl, rfl⟩, fun _ _ => ⟨rfl, rfl⟩, fun _ _ => ⟨rfl, rfl, rfl, rfl, rfl⟩, fun _ _ => rfl, rfl, rfl, rfl⟩
  | bound =>
    exact ⟨fun hne => absurd rfl (hne _ _), fun hne _ => absurd rfl (hne _ _), fun _ _ => ⟨rfl, rfl, rfl, rfl, rfl⟩,
      fun _ _ => rfl, rfl, rfl, rfl⟩
  | reset =>
    exact ⟨fun _ => ⟨rfl, rfl, rfl⟩, fun _ _ => ⟨rfl, rfl⟩, fun _ hne => absurd rfl hne, fun _ _ => rfl, rfl, rfl, rfl⟩
  | pushed =>
    exact ⟨fun _ => ⟨rfl, rfl, rfl⟩, fun _ hne => absurd rfl (hne _ _), fun _ _ => ⟨rfl, rfl, rfl, rfl, rfl⟩,
      fun hne => absurd rfl (hne _ _), rfl, rfl, rfl⟩
  | updated => exact ⟨by simp, by simp, fun hne => absurd rfl (hne _), by simp, by simp⟩
  | updatedEmpty => exact ⟨by simp, by simp, fun hne => absurd rfl (hne _), by simp, by simp⟩

/-! Everything a step can do -/

/-- What a step that answers has done to `s`: a command's effect, power-on reset, or a host move without a response, which
changes the moves, BUSY, the memory and the traces only. -/
inductive StepEffect (s : State) : State → Prop
  | command {i : Instr} {t : State} (rest : List HostMove) (h : ExecEffect { s with host := rest } i t) : StepEffect s t
  | poweredOn (rest : List HostMove) (h : s.host = .powerOnReset :: rest) :
      StepEffect s (powerOnReset { s with host := rest })
  | silent (host : List HostMove) (busy : Bool) (mem : Memory) (bus : List BusAccess) (coefReads : List CoefRead)
      (hmem : s.mem.Canonical → mem.Canonical) :
      StepEffect s { s with host := host, busy := busy, mem := mem, bus := bus, coefReads := coefReads }

/-- A move of the host that answers has one of the effects of `StepEffect`. -/
theorem hostMove_effect {m : HostMove} {rest : List HostMove} {s t : State} (hm : s.host = m :: rest)
    (h : hostMove m { s with host := rest } = .next t) : StepEffect s t := by
  cases m with
  | beat b =>
    simp only [hostMove] at h
    split at h
    · exact .command rest (exec_effect h)
    · cases h
  | wait =>
    cases h
    exact .silent rest s.busy s.mem s.bus s.coefReads id
  | powerOnReset =>
    cases h
    exact .poweredOn rest hm
  | beginBeat b acks coefs torn =>
    simp only [hostMove] at h
    split at h
    · obtain ⟨⟨mem, bus, reads, rfl⟩, hmem⟩ := beginCommand_ok h
      exact .silent rest true mem bus reads hmem
    · cases h
  | hostWrite addr v =>
    obtain ⟨-, -, rfl⟩ := hostWrite_ok h
    exact .silent rest s.busy _ s.bus s.coefReads fun hs => canonical_setByte hs addr.isLt v
  | hostRead addr =>
    obtain ⟨-, rfl⟩ := hostRead_ok (addr := addr) h
    exact .silent rest s.busy s.mem s.bus s.coefReads id

/-- A step that answers has one of the effects of `StepEffect`. -/
theorem step_effect {s t : State} (h : step s = .next t) : StepEffect s t := by
  obtain ⟨-, ⟨-, rfl⟩ | ⟨m, rest, hm, h⟩⟩ := step_cases h
  · exact .silent t.host t.busy t.mem t.bus t.coefReads id
  · exact hostMove_effect hm h

/-! STATUS (10_state R16) -/

/-- From `st` to `st'` no bit is cleared, and bits 7:6 are not written. -/
def StatusKept (st st' : BitVec 8) : Prop := st &&& st' = st ∧ st'.extractLsb' 6 2 = st.extractLsb' 6 2

theorem statusKept_refl (st : BitVec 8) : StatusKept st st := ⟨BitVec.and_self, rfl⟩

/-- OR-ing in a bit below bit 6 clears none and leaves bits 7:6. -/
theorem statusKept_setStatusBit (st : BitVec 8) {n : Nat} (hn : n ≤ 5) : StatusKept st (setStatusBit st n) := by
  refine ⟨?_, ?_⟩
  · ext k hk
    simpa [setStatusBit] using Or.inl
  · have hzero : (BitVec.ofNat 8 (2 ^ n)).extractLsb' 6 2 = 0#2 := by interval_cases n <;> decide
    rw [setStatusBit, BitVec.extractLsb'_or, hzero, BitVec.or_zero]

theorem causeCode_le (c : Cause) : c.code ≤ 5 := by cases c <;> decide

/-- No command clears a STATUS bit or writes bits 7:6. -/
theorem execEffect_statusKept {i : Instr} {s t : State} (h : ExecEffect s i t) : StatusKept s.status t.status := by
  cases h with
  | raised c => exact statusKept_setStatusBit _ (causeCode_le c)
  | answered => exact statusKept_refl _
  | bound => exact statusKept_setStatusBit _ (Nat.zero_le 5)
  | reset => exact statusKept_refl _
  | pushed => exact statusKept_refl _
  | updated => simpa using statusKept_refl s.status
  | updatedEmpty => simpa using statusKept_setStatusBit s.status (causeCode_le .div0)

/-- Settles O16, by the step's effect: only `raiseFault` and INIT write STATUS, and both OR a bit of 5:0 in. -/
theorem statusBitsAreSticky : Obligations.StatusBitsAreSticky := by
  intro s t h hno
  change StatusKept s.status t.status
  cases step_effect h with
  | command rest he => exact execEffect_statusKept (s := { s with host := rest }) he
  | poweredOn rest hh => exact absurd hh (hno rest)
  | silent => exact statusKept_refl _

end Sys2Proof.Machine
end

section
/-! PROOF. UPDATE keeps the ranges of TARGET and EFF (43_delay_smoother R78, R79) and the relation of the two grain slots
(45_grain_engine R91 to R93, R97). -/

namespace Sys2Proof.Machine

/-! The smoother keeps TARGET and EFF in range (43_delay_smoother R78, R79) -/

theorem toNat_trunc32 {v : Int} (h0 : 0 ≤ v) (h : v < 2 ^ 32) : ((trunc32 v).toNat : Int) = v := by
  rw [trunc32, BitVec.toNat_ofInt, Int.toNat_of_nonneg (Int.emod_nonneg v (by decide))]
  exact Int.emod_eq_of_lt h0 h

/-- A request that is taken is in range, so the new target is in range if the old one was. -/
theorem newTarget_inRange {c : Config} {target : Word} (a : Word)
    (h : c.minGrainSize ≤ target.toNat ∧ target.toNat ≤ c.maxGrainSize) :
    c.minGrainSize ≤ (newTarget c target a).toNat ∧ (newTarget c target a).toNat ≤ c.maxGrainSize := by
  unfold newTarget requestOperand
  split
  next hreq =>
    have hlt := BitVec.toInt_lt (x := a)
    have ha := toNat_trunc32 (v := a.toInt) (by omega) (by omega)
    omega
  next => exact h

/-- What is left of a distance after one step is at most the distance, as SMOOTH_K < 2^SMOOTH_SHIFT. -/
theorem scaledDiff_bounds {c : Config} (hc : c.SmoothOk) {d : Int} (hd : 0 ≤ d) :
    0 ≤ scaledDiff c d ∧ scaledDiff c d ≤ d := by
  obtain ⟨-, -, hk⟩ := hc
  have hpow : (0 : Int) < ((2 ^ c.smoothShift : Nat) : Int) := by positivity
  have hk' : (c.smoothK : Int) ≤ ((2 ^ c.smoothShift : Nat) : Int) := by exact_mod_cast hk.le
  exact ⟨Int.ediv_nonneg (by positivity) hpow.le,
    Int.ediv_le_of_le_mul hpow (mul_le_mul_of_nonneg_left hk' hd)⟩

theorem newEff_below {c : Config} {target eff : Word} (h : (eff.toNat : Int) < targetQ8 target) :
    newEff c target eff = trunc32 (targetQ8 target - scaledDiff c (targetQ8 target - eff.toNat)) := if_pos h

theorem newEff_above {c : Config} {target eff : Word} (h : targetQ8 target < (eff.toNat : Int)) :
    newEff c target eff = trunc32 (targetQ8 target + scaledDiff c (eff.toNat - targetQ8 target)) :=
  (if_neg h.not_gt).trans (if_pos h)

theorem newEff_arrived {c : Config} {target eff : Word} (h : (eff.toNat : Int) = targetQ8 target) :
    newEff c target eff = eff := (if_neg h.not_lt).trans (if_neg h.not_gt)

/-- EFF moves toward the target without passing it: it stays in every range that holds it and the target. -/
theorem newEff_between {c : Config} (hc : c.SmoothOk) {target eff : Word} {lo hi : Nat}
    (htarget : (lo : Int) ≤ targetQ8 target ∧ targetQ8 target ≤ hi) (heff : lo ≤ eff.toNat ∧ eff.toNat ≤ hi)
    (hhi : hi < 2 ^ 32) : lo ≤ (newEff c target eff).toNat ∧ (newEff c target eff).toNat ≤ hi := by
  obtain h | h | h := lt_trichotomy (eff.toNat : Int) (targetQ8 target)
  · have hs := scaledDiff_bounds hc (sub_nonneg.mpr h.le)
    have hnew := toNat_trunc32 (v := targetQ8 target - scaledDiff c (targetQ8 target - eff.toNat)) (by omega) (by omega)
    rw [newEff_below h]
    omega
  · rwa [newEff_arrived h]
  · have hs := scaledDiff_bounds hc (sub_nonneg.mpr h.le)
    have hnew := toNat_trunc32 (v := targetQ8 target + scaledDiff c (eff.toNat - targetQ8 target)) (by omega) (by omega)
    rw [newEff_above h]
    omega

/-- 2 ≤ MIN_GRAIN_SIZE ≤ MAX_GRAIN_SIZE < 2^23 (00_scope R6). -/
theorem sizesOk_of_accepted {c : Config} (h : c.Accepted) : c.SizesOk := by
  obtain ⟨-, -, -, hsizes, -⟩ := h
  exact hsizes

theorem smoothOk_of_accepted {c : Config} (h : c.Accepted) : c.SmoothOk := by
  obtain ⟨-, -, -, -, hsmooth, -⟩ := h
  exact hsmooth

theorem resetTargetOk_of_accepted {c : Config} (h : c.Accepted) : c.ResetTargetOk := by
  obtain ⟨-, -, -, -, -, hreset, -⟩ := h
  exact hreset

/-- UPDATE's first two steps keep R32 items 1 and 2. -/
theorem delayOk_smooth {s : State} (hc : s.cfg.Accepted) (a : Word) (h : s.DelayOk) : (smooth a s).DelayOk := by
  obtain ⟨-, -, hmax⟩ := sizesOk_of_accepted hc
  obtain ⟨htarget, heff⟩ := h
  have hnew := newTarget_inRange a htarget
  refine ⟨hnew, newEff_between (smoothOk_of_accepted hc) ?_ heff ?_⟩
  · rw [smooth_cfg, targetQ8]
    omega
  · rw [smooth_cfg]
    omega

/-- TARGET and EFF as power-on reset and RESET leave them are in range (10_state R19, R20). -/
theorem delayOk_of_reset {s : State} (hc : s.cfg.Accepted) (htarget : s.target = BitVec.ofNat 32 s.cfg.resetTarget)
    (heff : s.eff = BitVec.ofNat 32 (s.cfg.resetTarget * 2 ^ 8)) : s.DelayOk := by
  obtain ⟨-, -, hmax⟩ := sizesOk_of_accepted hc
  obtain ⟨hlo, hhi⟩ := resetTargetOk_of_accepted hc
  have ht : s.target.toNat = s.cfg.resetTarget := by rw [htarget, BitVec.toNat_ofNat, Nat.mod_eq_of_lt (by omega)]
  have he : s.eff.toNat = s.cfg.resetTarget * 2 ^ 8 := by rw [heff, BitVec.toNat_ofNat, Nat.mod_eq_of_lt (by omega)]
  unfold State.DelayOk
  omega

/-- A spawn finds a length of at least 1, at most MAX_GRAIN_SIZE / 2 (10_state R32 item 4). -/
theorem grainLen_bounds {s : State} (hc : s.cfg.Accepted) (h : s.DelayOk) :
    1 ≤ grainLen s.eff ∧ grainLen s.eff ≤ s.cfg.maxGrainSize / 2 := by
  obtain ⟨hmin, -, -⟩ := sizesOk_of_accepted hc
  obtain ⟨-, hlo, hhi⟩ := h
  unfold grainLen
  omega

/-! The step of R91 -/

/-- `ceil_div` is the ceiling division of the library (40_fixed_point R65). -/
theorem ceilDiv_eq (n d : Nat) : ceilDiv n d = n ⌈/⌉ d := rfl

theorem le_mul_ceilDiv (n : Nat) {d : Nat} (hd : 1 ≤ d) : n ≤ d * ceilDiv n d :=
  (ceilDiv_le_iff_le_mul hd).mp le_rfl

theorem ceilDiv_one_bounds {len : Nat} (h : 1 ≤ len) : 1 ≤ ceilDiv one len ∧ ceilDiv one len ≤ 2 ^ 28 := by
  refine ⟨Nat.pos_of_ne_zero fun hzero => ?_, (ceilDiv_le_iff_le_mul h).mpr (Nat.le_mul_of_pos_left _ h)⟩
  have hmul := le_mul_ceilDiv one h
  rw [hzero, Nat.mul_zero] at hmul
  exact absurd hmul (by decide)

theorem toNat_grainStep {len : Nat} (h : 1 ≤ len) : (BitVec.ofNat 32 (grainStep len)).toNat = ceilDiv one len := by
  have hle := (ceilDiv_one_bounds h).2
  rw [BitVec.toNat_ofNat, grainStep, if_pos h, Nat.mod_eq_of_lt (by omega)]

/-! One advance of a slot (R92) does not wrap -/

/-- A phase less a step of at most ONE does not wrap while the phase is at least -2^30. -/
theorem advance_phase_toInt {g : Grain} (hphase : -2 ^ 30 ≤ g.phase.toInt) (hstep : g.step.toNat ≤ 2 ^ 28) :
    g.advance.phase.toInt = g.phase.toInt - g.step.toNat := by
  have hstep' : g.step.toInt = g.step.toNat := BitVec.toInt_eq_toNat_of_lt (by omega)
  have hlt := BitVec.toInt_lt (x := g.phase)
  rw [advance_phase, BitVec.toInt_sub, hstep']
  exact Int.bmod_eq_of_le (by omega) (by omega)

theorem advance_counter_toNat {g : Grain} (h : g.counter.toNat < 2 ^ 31) :
    g.advance.counter.toNat = g.counter.toNat + 1 := by
  have hone : (1 : Word).toNat = 1 := rfl
  rw [advance_counter, BitVec.toNat_add_of_lt (by omega), hone]

/-! The running grain slots (R97) -/

/-- The common step lies in 1..ONE. -/
theorem grainsRunning_step_bounds {c : Config} {o p : Grain} (h : GrainsRunning c o p) :
    1 ≤ o.step.toNat ∧ o.step.toNat ≤ 2 ^ 28 := by
  obtain ⟨⟨hlen, -⟩, ⟨hstep, -⟩, -⟩ := h
  exact hstep ▸ ceilDiv_one_bounds hlen

/-- While the origin is above THRESH it has made less than half the steps of its length: it has come down by less than
half of ONE, in steps of at least ONE / LENGTH. -/
theorem grainsRunning_counter_lt {c : Config} (hc : c.Accepted) {o p : Grain} (h : GrainsRunning c o p) :
    2 * o.counter.toNat < o.length.toNat := by
  obtain ⟨⟨hlen, -⟩, ⟨hstep, -⟩, ⟨hphase, hthresh⟩, -⟩ := h
  rw [thresh_of_accepted hc] at hthresh
  have hdown : o.counter.toNat * o.step.toNat < 2 ^ 27 := by unfold one at hphase; omega
  have hone : 2 ^ 28 ≤ o.length.toNat * o.step.toNat := hstep ▸ le_mul_ceilDiv one hlen
  refine Nat.lt_of_mul_lt_mul_right (a := o.step.toNat) ?_
  rw [Nat.mul_assoc]
  omega

/-- Where both phases of running slots lie. -/
theorem grainsRunning_phase_bounds {c : Config} (hc : c.Accepted) {o p : Grain} (h : GrainsRunning c o p) :
    (2 ^ 27 < o.phase.toInt ∧ o.phase.toInt ≤ 2 ^ 28) ∧ -2 ^ 28 < p.phase.toInt ∧ p.phase.toInt ≤ 2 ^ 27 := by
  obtain ⟨-, -, ⟨hphase, hthresh⟩, ⟨habove, hbelow⟩, -⟩ := h
  rw [thresh_of_accepted hc] at hthresh habove hbelow
  unfold one at hphase hbelow
  omega

/-- What one advance of running slots does: both phases go down by the common step, both counters up by one. -/
theorem grainsRunning_advance_eqs {c : Config} (hc : c.Accepted) {o p : Grain} (h : GrainsRunning c o p) :
    (o.advance.phase.toInt = o.phase.toInt - o.step.toNat ∧ p.advance.phase.toInt = p.phase.toInt - o.step.toNat) ∧
      o.advance.counter.toNat = o.counter.toNat + 1 ∧ p.advance.counter.toNat = p.counter.toNat + 1 := by
  obtain ⟨ho, hp⟩ := grainsRunning_phase_bounds hc h
  have hstep := (grainsRunning_step_bounds h).2
  have hcounter := grainsRunning_counter_lt hc h
  have hsizes := sizesOk_of_accepted hc
  obtain ⟨⟨-, holen, hplen⟩, ⟨-, hsame⟩, -, -, -, hpcounter⟩ := h
  have hpcounter' : p.counter.toNat < 2 ^ 31 := by split_ifs at hpcounter <;> omega
  exact ⟨⟨advance_phase_toInt (by omega) hstep, hsame ▸ advance_phase_toInt (by omega) (hsame ▸ hstep)⟩,
    advance_counter_toNat (by omega), advance_counter_toNat hpcounter'⟩

/-- An advance that leaves the origin above THRESH keeps the relation of the slots. -/
theorem grainsRunning_advance {c : Config} (hc : c.Accepted) {o p : Grain} (h : GrainsRunning c o p)
    (habove : (c.thresh : Int) < o.advance.phase.toInt) : GrainsRunning c o.advance p.advance := by
  obtain ⟨⟨ho, hp⟩, hocounter, hpcounter⟩ := grainsRunning_advance_eqs hc h
  obtain ⟨hlen, hstep, ⟨hphase, -⟩, hdist, hnever, hcounter⟩ := h
  refine ⟨hlen, hstep, ⟨?_, habove⟩, ?_, ?_, ?_⟩
  · rw [ho, hphase, hocounter, advance_step, Nat.add_mul]
    omega
  · rw [ho, hp]
    omega
  · intro hzero
    have hle := hnever hzero
    omega
  · rw [hocounter, hpcounter, advance_length]
    omega

/-! The spawn (R93) -/

/-- A slot ready to become the predecessor of the next grain: its phase has come down to THRESH, by no more than one step
below 0, after at most half the steps of its length, or after one where it was never spawned (length 0). -/
structure Grain.AtThreshold (c : Config) (g : Grain) : Prop where
  length_le : g.length.toNat ≤ c.maxGrainSize / 2
  phase_gt : -2 ^ 27 < g.phase.toInt
  phase_le : g.phase.toInt ≤ 2 ^ 27
  phase_nonpos : g.length.toNat = 0 → g.phase.toInt ≤ 0
  counter_le : g.counter.toNat ≤ if g.length.toNat = 0 then 1 else (g.length.toNat + 1) / 2

/-- The slots as power-on or RESET left them: the first UPDATE finds the origin at the threshold. -/
theorem atThreshold_advance_cleared (c : Config) : Grain.cleared.advance.AtThreshold c where
  length_le := Nat.zero_le _
  phase_gt := by decide
  phase_le := by decide
  phase_nonpos := fun _ => by decide
  counter_le := by decide

/-- A running origin that an advance takes to THRESH or below. -/
theorem grainsRunning_atThreshold {c : Config} (hc : c.Accepted) {o p : Grain} (h : GrainsRunning c o p)
    (hle : o.advance.phase.toInt ≤ (c.thresh : Int)) : o.advance.AtThreshold c := by
  obtain ⟨⟨ho, -⟩, hocounter, -⟩ := grainsRunning_advance_eqs hc h
  obtain ⟨⟨hgt, -⟩, -⟩ := grainsRunning_phase_bounds hc h
  have hstep := (grainsRunning_step_bounds h).2
  have hcounter := grainsRunning_counter_lt hc h
  obtain ⟨⟨hlen, holen, -⟩, -⟩ := h
  rw [thresh_of_accepted hc] at hle
  refine ⟨holen, by omega, hle, fun hzero => ?_, ?_⟩
  · rw [advance_length] at hzero
    omega
  · rw [hocounter, advance_length, if_neg (by omega)]
    omega

/-- The spawned slot and the old origin with the new step stand in the relation of R97. -/
theorem grainsRunning_spawn {s : State} (hc : s.cfg.Accepted) (h : s.DelayOk) {g : Grain} (hg : g.AtThreshold s.cfg) :
    GrainsRunning s.cfg (spawnedGrain s) { g with step := BitVec.ofNat 32 (grainStep (grainLen s.eff)) } := by
  obtain ⟨hlen, hmax⟩ := grainLen_bounds hc h
  obtain ⟨-, -, hsize⟩ := sizesOk_of_accepted hc
  have hlength : (spawnedGrain s).length.toNat = grainLen s.eff := by
    rw [spawnedGrain, BitVec.toNat_ofNat, Nat.mod_eq_of_lt (by omega)]
  have hphase : (spawnedGrain s).phase.toInt = 2 ^ 28 := rfl
  have hcounter : (spawnedGrain s).counter.toNat = 0 := rfl
  have hgt := hg.phase_gt
  have hle := hg.phase_le
  rw [GrainsRunning, thresh_of_accepted hc, hlength, hphase, hcounter, one]
  dsimp only
  refine ⟨⟨hlen, hmax, hg.length_le⟩, ⟨toNat_grainStep hlen, rfl⟩, ⟨by omega, by omega⟩, ⟨by omega, by omega⟩,
    hg.phase_nonpos, ?_⟩
  rw [Nat.zero_add]
  exact hg.counter_le

theorem mustSpawn_iff {s : State} : mustSpawn s = true ↔ (s.grain s.origin).phase.toInt ≤ (s.cfg.thresh : Int) := by
  simp [mustSpawn]

theorem grainsOk_spawn {s : State} (hc : s.cfg.Accepted) (hd : s.DelayOk) (h : (s.grain s.origin).AtThreshold s.cfg) :
    (spawn s).GrainsOk := by
  refine .inr ?_
  rw [spawn_cfg, spawn_origin, slot_other_other, spawn_grain_origin, spawn_grain_predecessor]
  exact grainsRunning_spawn hc hd h

/-- The origin of slots not yet started. -/
theorem grain_origin_of_fresh {s : State} (h : s.GrainsFresh) : s.grain s.origin = .cleared := by
  obtain ⟨horigin, hzero, -⟩ := h
  rw [horigin, State.grain, hzero]

/-- UPDATE's last two steps keep the relation of the slots: either the origin is still above THRESH after the advance, or
it has come to the threshold and a grain is spawned. -/
theorem grainsOk_grainTrigger_grainAdvance {s : State} (hc : s.cfg.Accepted) (hd : s.DelayOk) (h : s.GrainsOk) :
    (grainTrigger (grainAdvance s)).GrainsOk := by
  unfold grainTrigger
  split
  next hmust =>
    refine grainsOk_spawn hc hd ?_
    rw [mustSpawn_iff] at hmust
    rw [grainAdvance_origin, grainAdvance_grain] at hmust ⊢
    obtain h | h := h
    · rw [grain_origin_of_fresh h]
      exact atThreshold_advance_cleared s.cfg
    · exact grainsRunning_atThreshold hc h hmust
  next hmust =>
    rw [mustSpawn_iff, grainAdvance_origin, grainAdvance_grain, not_le] at hmust
    obtain h | h := h
    · rw [grain_origin_of_fresh h] at hmust
      exact absurd (Int.natCast_nonneg _) (not_le.mpr hmust)
    · refine .inr ?_
      rw [grainAdvance_origin, grainAdvance_grain, grainAdvance_grain]
      exact grainsRunning_advance hc h hmust

end Sys2Proof.Machine
end

section
/-! PROOF. Every command and every step keeps the invariant of 10_state R32 and 45_grain_engine R96, R97. -/

namespace Sys2Proof.Machine

/-! The pointers -/

/-- What holds of both slots holds of a slot and the other one. -/
theorem forall_slot {P : Slot → Prop} (g : Slot) : (∀ x, P x) ↔ P g ∧ P g.other := by
  refine ⟨fun h => ⟨h _, h _⟩, fun ⟨hg, ho⟩ x => ?_⟩
  cases g <;> cases x <;> assumption

theorem pointersOk_iff {s : State} :
    s.PointersOk ↔ s.wpIn < s.cfg.capIn ∧ s.wpFb < s.cfg.capFb ∧ ∀ g, (s.grain g).readStart < s.cfg.capIn := by
  rw [forall_slot .zero]
  exact Iff.rfl

/-- A spawned grain starts at WP_IN, so the trigger keeps the pointers below the capacities. -/
theorem pointersOk_grainTrigger {s : State} (h : s.PointersOk) : (grainTrigger s).PointersOk := by
  unfold grainTrigger
  split
  · rw [pointersOk_iff] at h ⊢
    obtain ⟨hin, hfb, hread⟩ := h
    refine ⟨by simpa using hin, by simpa using hfb, (forall_slot s.origin).mpr ⟨?_, ?_⟩⟩
    · simpa using hread s.origin
    · simpa [spawnedGrain] using hin
  · exact h

/-! Every command keeps the invariant -/

/-- UPDATE's steps keep the invariant. -/
theorem inv_updateEngine (a : Word) {s : State} (h : s.Inv) : (updateEngine a s).Inv := by
  obtain ⟨hc, hmem, hregions, hpointers, hdelay, hstatus, hgrains⟩ := h
  have hdelay' := delayOk_smooth hc a hdelay
  refine ⟨by simpa using hc, by simpa using hmem, by simpa [State.RegionsOk] using hregions, ?_,
    by simpa [State.DelayOk] using hdelay', by simpa [State.StatusOk] using hstatus,
    grainsOk_grainTrigger_grainAdvance (s := smooth a s) hc hdelay' hgrains⟩
  exact pointersOk_grainTrigger (s := grainAdvance (smooth a s)) hpointers

/-- No UPDATE finds a length of 0: ERR_DIV0 is not taken (10_state R32 item 4). -/
theorem spawnsEmpty_of_inv (a : Word) {s : State} (h : s.Inv) : spawnsEmpty (grainAdvance (smooth a s)) = false := by
  obtain ⟨hc, -, -, -, hdelay, -, -⟩ := h
  have hlen := (grainLen_bounds (s := smooth a s) hc (delayOk_smooth hc a hdelay)).1
  simp only [spawnsEmpty, grainAdvance_eff, Bool.and_eq_false_iff]
  exact .inr (decide_eq_false (by omega))

/-- Setting a bit below bit 5 keeps `StatusOk`. -/
theorem statusOk_setStatusBit {st : BitVec 8} (h : st.extractLsb' 6 2 = 0 ∧ st.getLsbD 5 = false) {n : Nat} (hn : n < 5) :
    (setStatusBit st n).extractLsb' 6 2 = 0 ∧ (setStatusBit st n).getLsbD 5 = false := by
  refine ⟨(statusKept_setStatusBit st hn.le).2.trans h.1, ?_⟩
  have hbit : (BitVec.ofNat 8 (2 ^ n)).getLsbD 5 = false := by interval_cases n <;> decide
  rw [setStatusBit, BitVec.getLsbD_or, h.2, hbit, Bool.or_false]

/-- Causes 1 to 4 keep the invariant. -/
theorem inv_raiseFault {c : Cause} (hc : c ≠ .div0) {s : State} (h : s.Inv) : (raiseFault c s).Inv := by
  obtain ⟨haccepted, hmem, hregions, hpointers, hdelay, hstatus, hgrains⟩ := h
  have hcode : c.code < 5 := by
    cases c with
    | div0 => exact absurd rfl hc
    | notInit | reinit | badBase | illegalOp => decide
  refine ⟨haccepted, hmem, ?_, hpointers, hdelay, statusOk_setStatusBit hstatus hcode, hgrains⟩
  rw [State.RegionsOk, raiseFault_initDone]
  exact hregions

/-- Every effect of a command keeps the invariant. -/
theorem execEffect_inv {i : Instr} {s t : State} (he : ExecEffect s i t) (h : s.Inv) : t.Inv := by
  have ⟨hc, hmem, hregions, hpointers, hdelay, hstatus, hgrains⟩ := h
  cases he with
  | raised c hne => exact inv_raiseFault hne h
  | answered => exact h
  | bound _ hbases =>
    obtain ⟨-, -, hread0, hread1⟩ := hpointers
    exact ⟨hc, hmem, fun _ => hbases, ⟨ringCap_pos s.cfg .inp, ringCap_pos s.cfg .fb, hread0, hread1⟩, hdelay,
      statusOk_setStatusBit hstatus (by decide), hgrains⟩
  | reset =>
    obtain ⟨hin, hfb, -, -⟩ := hpointers
    exact ⟨hc, hmem, hregions, ⟨hin, hfb, ringCap_pos s.cfg .inp, ringCap_pos s.cfg .inp⟩,
      delayOk_of_reset (s := resetEngine s) hc rfl rfl, hstatus, .inl ⟨rfl, rfl, rfl⟩⟩
  | pushed mem bus hmem' =>
    obtain ⟨-, -, hread0, hread1⟩ := hpointers
    exact ⟨hc, hmem' hmem, hregions, ⟨ringIdx_lt s.cfg .inp _, ringIdx_lt s.cfg .fb _, hread0, hread1⟩, hdelay, hstatus,
      hgrains⟩
  | updated => exact inv_updateEngine _ h
  | updatedEmpty hempty => exact absurd hempty (by simp [spawnsEmpty_of_inv _ h])

/-- Power-on reset in an accepted configuration meets the invariant, whatever the memory holds (70_reset_and_hazards
R119). -/
theorem inv_launch {cfg : Config} (hc : cfg.Accepted) {mem : Memory} (hmem : mem.Canonical) (host : List HostMove) :
    (State.launch cfg mem host).Inv :=
  ⟨hc, hmem, by simp [State.RegionsOk, State.initDone, State.launch],
    ⟨ringCap_pos cfg .inp, ringCap_pos cfg .fb, ringCap_pos cfg .inp, ringCap_pos cfg .inp⟩,
    delayOk_of_reset (s := State.launch cfg mem host) hc rfl rfl, by simp [State.StatusOk, State.launch],
    .inl ⟨rfl, rfl, rfl⟩⟩

/-- Settles O41, by the step's effect: a command keeps the invariant, power-on reset meets it afresh, and another move of
the host leaves every register. -/
theorem everyStepKeepsTheInvariant : Obligations.EveryStepKeepsTheInvariant := by
  intro s t h hstep
  have ⟨hc, hmem, hrest⟩ := h
  cases step_effect hstep with
  | command rest he => exact execEffect_inv he h
  | poweredOn rest => exact inv_launch hc hmem rest
  | silent host busy mem bus coefReads hmem' => exact ⟨hc, hmem' hmem, hrest⟩

end Sys2Proof.Machine
end

section
/-! PROOF. Every run from power-on reset meets the ranges of 10_state R32. -/

namespace Sys2Proof.Machine

/-- No command writes the configuration (00_scope R6, 10_state R25). -/
theorem execEffect_cfg {i : Instr} {s t : State} (h : ExecEffect s i t) : t.cfg = s.cfg := by
  cases h with
  | raised | answered | bound | reset | pushed => rfl
  | updated | updatedEmpty => exact updateEngine_cfg _ s

theorem step_cfg {s t : State} (h : step s = .next t) : t.cfg = s.cfg := by
  cases step_effect h with
  | command rest he => exact execEffect_cfg (s := { s with host := rest }) he
  | poweredOn | silent => rfl

/-- What every step keeps holds at the end of every run that starts with it. -/
theorem run_induction {P : State → Prop} (hstep : ∀ s t, P s → step s = .next t → P t) {k : Nat} {s t : State} (hs : P s)
    (h : Host.Core.run Sys2Proof.core k s = .next t) : P t := by
  induction k generalizing s with
  | zero =>
    cases h
    exact hs
  | succ k ih =>
    simp only [Host.Core.run] at h
    split at h
    next u hu => exact ih (hstep s u hs hu) h
    next => cases h
    next => cases h

/-- The invariant and the configuration at the end of every run from power-on reset. -/
theorem run_launch_inv {cfg : Config} {mem : Memory} {host : List HostMove} {k : Nat} {t : State} (hc : cfg.Accepted)
    (hmem : mem.Canonical) (h : Host.Core.run Sys2Proof.core k (State.launch cfg mem host) = .next t) :
    t.Inv ∧ t.cfg = cfg :=
  run_induction (P := fun s => s.Inv ∧ s.cfg = cfg)
    (fun s u ⟨hinv, hcfg⟩ hu => ⟨everyStepKeepsTheInvariant s u hinv hu, (step_cfg hu).trans hcfg⟩)
    ⟨inv_launch hc hmem host, rfl⟩ h

/-- R32 items 3 and 5 for the two slots of a state of the invariant, whichever is the origin. -/
theorem grainsOk_steps_and_phases {s : State} (hc : s.cfg.Accepted) (h : s.GrainsOk) :
    s.grain0.step = s.grain1.step ∧ s.grain0.step.toNat ≤ 2 ^ 28 ∧ (1 ≤ s.grain0.step.toNat ∨ s.GrainsFresh) ∧
      s.grain0.phase.toInt ≤ 2 ^ 28 ∧ s.grain1.phase.toInt ≤ 2 ^ 28 := by
  obtain hfresh | h := h
  · have ⟨_, h0, h1⟩ := hfresh
    rw [h0, h1]
    exact ⟨rfl, by decide, .inr hfresh, by decide, by decide⟩
  · have hslots : ∀ g, (s.grain g).step = (s.grain s.origin).step ∧ (s.grain g).phase.toInt ≤ 2 ^ 28 := by
      obtain ⟨⟨-, ho⟩, -, hp⟩ := grainsRunning_phase_bounds hc h
      obtain ⟨-, ⟨-, hsame⟩, -⟩ := h
      exact (forall_slot s.origin).mpr ⟨⟨rfl, ho⟩, hsame, by omega⟩
    have hstep := grainsRunning_step_bounds h
    rw [← (hslots .zero).1] at hstep
    exact ⟨(hslots .zero).1.trans (hslots .one).1.symm, hstep.2, .inl hstep.1, (hslots .zero).2, (hslots .one).2⟩

/-- Settles O42: the invariant holds at the end of the run, and has the ranges of R32 among its parts. -/
theorem everyRunKeepsTheRangesOfR32 : Obligations.EveryRunKeepsTheRangesOfR32 := by
  intro cfg mem host k t hc hmem hrun
  obtain ⟨⟨-, -, -, -, hdelay, ⟨-, hdiv0⟩, hgrains⟩, rfl⟩ := run_launch_inv hc hmem hrun
  obtain ⟨-, -, hmax⟩ := sizesOk_of_accepted hc
  have hlen := (grainLen_bounds hc hdelay).1
  obtain ⟨htarget, hlo, hhi⟩ := hdelay
  obtain ⟨hsame, hstep, hfresh, hphases⟩ := grainsOk_steps_and_phases hc hgrains
  exact ⟨htarget, ⟨hlo, hhi, by omega⟩, ⟨hsame, hstep, hfresh⟩, ⟨hlen, hdiv0⟩, hphases⟩

end Sys2Proof.Machine
end

section
/-! PROOF. The memory port: a word access is its four bytes, lowest first (20_memory R34, R35), and each command's accesses
are the ones R39 lists, in their order. -/

namespace Sys2Proof.Machine

/-! A word and its bytes (20_memory R36) -/

/-- The bytes of a word in memory, lowest first. -/
theorem word_bytes (m : Memory) (addr : Nat) :
    (m.word addr).extractLsb' 0 8 = m.byte addr ∧ (m.word addr).extractLsb' 8 8 = m.byte (addr + 1) ∧
      (m.word addr).extractLsb' 16 8 = m.byte (addr + 2) ∧ (m.word addr).extractLsb' 24 8 = m.byte (addr + 3) := by
  unfold Memory.word
  refine ⟨BitVec.extractLsb'_append_eq_right, ?_, ?_, ?_⟩
  · rw [BitVec.extractLsb'_append_eq_of_le (by decide)]
    exact BitVec.extractLsb'_append_eq_right
  · rw [BitVec.extractLsb'_append_eq_of_le (by decide), BitVec.extractLsb'_append_eq_of_le (by decide)]
    exact BitVec.extractLsb'_append_eq_right
  · rw [BitVec.extractLsb'_append_eq_of_le (by decide), BitVec.extractLsb'_append_eq_of_le (by decide)]
    exact BitVec.extractLsb'_append_eq_left

/-- The bytes of a word just written, lowest first. -/
theorem bytes_setWord {m : Memory} (hm : m.Canonical) (addr : Nat) (v : Word) :
    (m.setWord addr v).byte addr = v.extractLsb' 0 8 ∧ (m.setWord addr v).byte (addr + 1) = v.extractLsb' 8 8 ∧
      (m.setWord addr v).byte (addr + 2) = v.extractLsb' 16 8 ∧
      (m.setWord addr v).byte (addr + 3) = v.extractLsb' 24 8 := by
  simp [byte_setWord hm]

/-- The word just written is what its address reads as: a word is its four bytes put together. -/
theorem word_setWord {m : Memory} (hm : m.Canonical) (addr : Nat) (v : Word) : (m.setWord addr v).word addr = v := by
  obtain ⟨h0, h1, h2, h3⟩ := bytes_setWord hm addr v
  rw [Memory.word, h0, h1, h2, h3, BitVec.extractLsb'_append_extractLsb'_eq_extractLsb' (by decide),
    BitVec.extractLsb'_append_extractLsb'_eq_extractLsb' (by decide),
    BitVec.extractLsb'_append_extractLsb'_eq_extractLsb' (by decide)]
  exact BitVec.extractLsb'_eq_self

/-- Settles O10: an aligned address inside the space is accessible, so both accesses answer; the rest is the laws of
the memory, byte by byte. -/
theorem wordAccessesAreLittleEndian : Obligations.WordAccessesAreLittleEndian := by
  intro s addr v hmem halign hspace
  have hok : accessError addr = none := accessError_eq_none.mpr ⟨halign, hspace⟩
  obtain ⟨h0, h1, h2, h3⟩ := bytes_setWord hmem addr v
  exact ⟨⟨s.mem.word addr, memRead_of_accessible hok s, word_bytes s.mem addr⟩,
    ⟨s.mem.setWord addr v, memWrite_of_accessible hok v s, h0, h1, h2, h3,
      fun x hx => byte_setWord_outside hmem v hx, word_setWord hmem addr v⟩⟩

/-! What each command adds to the trace of completed accesses (20_memory R39) -/

/-- The two ring writes of PUSH, at the new write pointers (42_ring_buffer R75). -/
theorem pushBoth_bus {a b : Word} {s t : State} (h : pushBoth a b s = .ok t) :
    t.bus = s.bus ++ [.write (ringAddr s .inp (pushedWp s .inp)) a, .write (ringAddr s .fb (pushedWp s .fb)) b] := by
  obtain ⟨u, hu, h⟩ := except_bind_eq_ok.mp h
  obtain ⟨v, hv, h⟩ := except_bind_eq_ok.mp h
  obtain ⟨-, rfl⟩ := memWrite_ok hu
  obtain ⟨-, rfl⟩ := memWrite_ok hv
  cases h
  exact List.append_assoc ..

/-- A ring read that answers adds itself to the trace and changes nothing else (42_ring_buffer R73). -/
theorem ringRead_ok {r : Ring} {k : Int} {s t : State} {v : Word} (h : ringRead r k s = .ok (v, t)) :
    t = { s with bus := s.bus ++ [plannedRead s r k] } := by
  obtain ⟨-, rfl, rfl⟩ := memRead_ok h
  rfl

/-- DOUT's loop reads FB once for each of its taps, in order (44_fractional_delay R86). -/
theorem firTaps_bus {base : Int} {sel : BitVec 8} {js : List Nat} {acc acc' : BitVec 64} {s t : State}
    (h : firTaps base sel js acc s = .ok (acc', t)) :
    t.bus = s.bus ++ js.map fun (j : Nat) => plannedRead s .fb (base + j) := by
  induction js generalizing acc s with
  | nil =>
    cases h
    exact (List.append_nil _).symm
  | cons j js ih =>
    obtain ⟨⟨x, u⟩, hu, h⟩ := except_bind_eq_ok.mp h
    obtain rfl := ringRead_ok hu
    exact (ih h).trans (List.append_assoc ..)

theorem delayOutput_bus {s t : State} (h : delayOutput s = .ok t) :
    t.bus = s.bus ++ (List.range s.cfg.taps).map fun (j : Nat) => plannedRead s .fb (firBase s + j) := by
  obtain ⟨⟨y, u⟩, hu, h⟩ := except_bind_eq_ok.mp h
  obtain ⟨⟨acc, v⟩, hv, hu⟩ := except_bind_eq_ok.mp hu
  cases hu
  cases h
  exact (firTaps_bus hv :)

/-- One slot's turn in ROUT's loop reads IN once, or not at all where the slot is Inactive (45_grain_engine R95). -/
theorem addGrain_bus {g : Grain} {sum sum' : Word} {s t : State} (h : addGrain g sum s = .ok (sum', t)) :
    t.bus = s.bus ++ if g.active then [plannedRead s .inp (grainReadIndex g)] else [] := by
  unfold addGrain at h
  split at h
  next hactive =>
    obtain ⟨⟨x, u⟩, hu, h⟩ := except_bind_eq_ok.mp h
    obtain rfl := ringRead_ok hu
    cases h
    rw [if_pos hactive]
  next hactive =>
    cases h
    rw [if_neg hactive, List.append_nil]

/-- ROUT reads for slot 0, then for slot 1; the first read leaves what the second answers (45_grain_engine R95). -/
theorem reverseOutput_bus {s t : State} (h : reverseOutput s = .ok t) :
    t.bus = s.bus ++ ((if s.grain0.active then [plannedRead s .inp (grainReadIndex s.grain0)] else []) ++
      if s.grain1.active then [plannedRead s .inp (grainReadIndex s.grain1)] else []) := by
  obtain ⟨⟨sum, u⟩, hu, h⟩ := except_bind_eq_ok.mp h
  have hbus := addGrain_bus hu
  obtain ⟨bus, rfl⟩ := addGrain_frame hu
  obtain ⟨⟨sum', v⟩, hv, h⟩ := except_bind_eq_ok.mp h
  cases h
  rw [respond_bus, addGrain_bus hv, ← List.append_assoc, ← hbus]
  rfl

/-- UPDATE's four steps make no access. -/
@[simp] theorem updateEngine_bus (a : Word) (s : State) : (updateEngine a s).bus = s.bus := by
  simp [updateEngine]

/-- ROUT's planned reads, slot by slot: an Inactive slot has none (45_grain_engine R95). -/
theorem plannedAccesses_rout {s : State} (h : s.initDone = true) :
    plannedAccesses .rout s = (if s.grain0.active then [plannedRead s .inp (grainReadIndex s.grain0)] else []) ++
      if s.grain1.active then [plannedRead s .inp (grainReadIndex s.grain1)] else [] := by
  rw [plannedAccesses, if_pos h]
  cases h0 : s.grain0.active <;> cases h1 : s.grain1.active <;> simp [h0, h1]

/-- Before INIT there are no regions to access (20_memory R33). -/
theorem plannedAccesses_of_not_initDone (i : Instr) {s : State} (h : s.initDone = false) : plannedAccesses i s = [] := by
  simp [plannedAccesses, h]

/-- Behind the dispatch's check, a command's accesses are the planned ones if those of what it runs are: a command before
INIT has none planned and makes none (41_control R67). -/
theorem whenInitDone_bus {i : Instr} {s t : State} {r : Result} (h : whenInitDone s r = .next t)
    (hr : s.initDone = true → r = .next t → t.bus = s.bus ++ plannedAccesses i s) :
    t.bus = s.bus ++ plannedAccesses i s := by
  obtain ⟨hd, rfl⟩ | ⟨hd, h⟩ := whenInitDone_cases h
  · rw [plannedAccesses_of_not_initDone i hd, List.append_nil, raiseFault_bus]
  · exact hr hd h

/-- A command that answers has made the accesses that are planned for it, and no other (20_memory R39). -/
theorem exec_bus {i : Instr} {s t : State} (h : exec i s = .next t) : t.bus = s.bus ++ plannedAccesses i s := by
  cases i with
  | nop | reserved7 =>
    cases h
    simp [plannedAccesses]
  | init a b =>
    obtain ⟨-, rfl⟩ | ⟨-, -, rfl⟩ | ⟨-, -, rfl⟩ := execInit_cases h <;> simp [plannedAccesses]
  | reset =>
    refine whenInitDone_bus h fun _ h => ?_
    cases h
    simp [plannedAccesses]
  | push a b =>
    refine whenInitDone_bus h fun hd h => ?_
    rw [pushBoth_bus (ofExcept_eq_next.mp h), plannedAccesses, if_pos hd]
    rfl
  | update a =>
    refine whenInitDone_bus h fun _ h => ?_
    split at h <;> cases h <;> simp [plannedAccesses]
  | dout =>
    refine whenInitDone_bus h fun hd h => ?_
    rw [delayOutput_bus (ofExcept_eq_next.mp h), plannedAccesses, if_pos hd]
  | rout =>
    refine whenInitDone_bus h fun hd h => ?_
    rw [reverseOutput_bus (ofExcept_eq_next.mp h), plannedAccesses_rout hd]

/-- A masked index names the element of the index it masks (42_ring_buffer R72). -/
theorem ringAddr_ringIdx (s : State) (r : Ring) (k : Int) : ringAddr s r (ringIdx s.cfg r k) = ringAddr s r k := by
  rw [ringAddr, ringIdx_of_lt (ringIdx_lt s.cfg r k), ringAddr]

/-- Settles O13: the trace grows by the planned accesses, and these are R39's list. -/
theorem eachCommandMakesItsAccessesInOrder : Obligations.EachCommandMakesItsAccessesInOrder := by
  intro i s t h
  rw [exec_bus h]
  congr 1
  cases hd : s.initDone with
  | false =>
    rw [plannedAccesses_of_not_initDone i hd]
    cases i <;> simp
  | true =>
    cases i with
    | nop | init | reset | update | reserved7 => simp [plannedAccesses]
    | push a b =>
      rw [plannedAccesses, if_pos hd]
      simp only [pushedWp, ringAddr_ringIdx]
      rfl
    | dout =>
      rw [plannedAccesses, if_pos hd]
      rfl
    | rout =>
      rw [plannedAccesses_rout hd]
      simp [Grain.active, plannedRead]

end Sys2Proof.Machine
end

section
/-! PROOF. The encoding statements (30_encoding): beats and commands agree, the op field alone selects the command, the
fields a command ignores have no effect, and what the pseudo-instructions stand for. -/

namespace Sys2Proof.Machine

/-! A beat and its 67 bits (30_encoding R48) -/

theorem unpack_pack (b : Beat) : Beat.unpack b.pack = b := by
  have hop : b.pack.extractLsb' 64 3 = b.op := by
    rw [Beat.pack, BitVec.extractLsb'_append_eq_of_le (by decide)]
    exact BitVec.extractLsb'_append_eq_left
  have ha : b.pack.extractLsb' 0 32 = b.a := BitVec.extractLsb'_append_eq_right
  have hb : b.pack.extractLsb' 32 32 = b.b := by
    rw [Beat.pack, BitVec.extractLsb'_append_eq_of_le (by decide)]
    exact BitVec.extractLsb'_append_eq_right
  rw [Beat.unpack, hop, ha, hb]

/-- The three fields cover the 67 bits: none is dropped. -/
theorem pack_unpack (w : BitVec 67) : (Beat.unpack w).pack = w := by
  have hhigh : (w.extractLsb' 64 3 ++ w.extractLsb' 32 32 : BitVec 35) = w.extractLsb' 32 35 :=
    BitVec.extractLsb'_append_extractLsb'_eq_extractLsb' (by decide)
  calc (Beat.unpack w).pack
      = (w.extractLsb' 64 3 ++ w.extractLsb' 32 32 : BitVec 35) ++ w.extractLsb' 0 32 := rfl
    _ = w.extractLsb' 32 35 ++ w.extractLsb' 0 32 := by rw [hhigh]
    _ = w := BitVec.extractLsb'_append_extractLsb' (w := 35)

theorem decodeBits_toNat (w : BitVec 67) : decodeBits w.toNat = .ok (decode (.unpack w)) := by
  rw [decodeBits, if_pos w.isLt, BitVec.ofNat_toNat, BitVec.setWidth_eq]

theorem decodeBits_pack (b : Beat) : decodeBits b.pack.toNat = .ok (decode b) := by
  rw [decodeBits_toNat, unpack_pack]

/-! Commands and their beats (30_encoding R49, R50) -/

open Laws.IgnoredFields in
/-- The laws of the single commands, for every command. -/
theorem ignoredFields_statement (i : Instr) : Statement i := by
  cases i with
  | nop => exact nop
  | init a b => exact init a b
  | reset => exact reset
  | push a b => exact push a b
  | update a => exact update a
  | dout => exact dout
  | rout => exact rout
  | reserved7 => exact reserved7

theorem decode_encodeWith (x y : Word) (i : Instr) : decode (encodeWith x y i) = i :=
  (ignoredFields_statement i x y).left

/-- The eight rows of the opcode table are all values of the op field. -/
theorem op_cases (op : BitVec 3) :
    op = 0 ∨ op = 1 ∨ op = 2 ∨ op = 3 ∨ op = 4 ∨ op = 5 ∨ op = 6 ∨ op = 7 := by
  revert op
  decide

/-- A beat is the beat of the command it decodes to, its own fields standing where the command ignores them. -/
theorem encodeWith_decode (b : Beat) : encodeWith b.a b.b (decode b) = b := by
  obtain ⟨op, x, y⟩ := b
  obtain rfl | rfl | rfl | rfl | rfl | rfl | rfl | rfl := op_cases op <;> rfl

/-- Settles O3: packing and unpacking are inverse to each other, and so are encoding and decoding once the ignored fields
are kept. -/
theorem beatsAndCommandsRoundTrip : Obligations.BeatsAndCommandsRoundTrip := by
  refine ⟨fun i x y _ => ?_, fun w hw => ?_, fun w hw => if_neg hw.not_gt⟩
  · rw [decodeBits_pack, decode_encodeWith]
  · obtain ⟨v, rfl⟩ : ∃ v : BitVec 67, w = v.toNat := ⟨BitVec.ofNatLT w hw, rfl⟩
    refine ⟨decode (.unpack v), (Beat.unpack v).a, (Beat.unpack v).b, decodeBits_toNat v, ?_⟩
    rw [encodeWith_decode, pack_unpack]

/-- Settles O1, row by row of the table: `decode` compares the op field alone. -/
theorem opFieldAloneSelectsTheCommand : Obligations.OpFieldAloneSelectsTheCommand :=
  fun _ _ => ⟨rfl, rfl, rfl, rfl, rfl, rfl, rfl, rfl⟩

/-- Settles O2: each word is the packed beat whose fields it writes out. -/
theorem writtenBeatsDecode : Obligations.WrittenBeatsDecode :=
  ⟨decodeBits_pack ⟨0, 0, 0⟩, decodeBits_pack ⟨1, 0x20000000, 0x20020000⟩, decodeBits_pack ⟨2, 0, 0⟩,
    decodeBits_pack ⟨3, 0x01000000, 0xFF800000⟩, decodeBits_pack ⟨4, 0xFFFFFFFF, 0⟩, decodeBits_pack ⟨5, 0, 0⟩,
    decodeBits_pack ⟨6, 0, 0⟩, decodeBits_pack ⟨7, 0, 0⟩⟩

/-! The step sees the decoded command only -/

theorem hostMove_beat_congr {b b' : Beat} (h : decode b = decode b') (s : State) :
    hostMove (.beat b) s = hostMove (.beat b') s := by
  rw [hostMove, hostMove, h]

/-- Settles O4: the step is refused whatever the move is, or it is the host's move, which decodes the beat. -/
theorem ignoredFieldsHaveNoEffect : Obligations.IgnoredFieldsHaveNoEffect := by
  intro i x y x' y' s rest
  by_cases hc : s.cfg.Accepted
  · have hdecode : decode (encodeWith x y i) = decode (encodeWith x' y' i) := by simp only [decode_encodeWith]
    rw [step_of_move (by exact hc) rfl, step_of_move (by exact hc) rfl]
    exact hostMove_beat_congr hdecode _
  · rw [step_of_not_accepted (by exact hc), step_of_not_accepted (by exact hc)]

/-! Pseudo-instructions (30_encoding R56) -/

/-- An accepted MIN_GRAIN_SIZE is at least 2, so a request of 0 samples is below it and is ignored (43_delay_smoother
R78). -/
theorem newTarget_zero {c : Config} (hc : c.Accepted) (target : Word) : newTarget c target 0 = target := by
  obtain ⟨hmin, -, -⟩ := sizesOk_of_accepted hc
  have hzero : requestOperand 0 = 0 := BitVec.toInt_zero
  exact if_neg (by omega)

/-- UPDATE after INIT completes, by an answer or by cause 5, with the target of its first step. -/
theorem execUpdate_target {s : State} (h : s.initDone = true) (a : Word) :
    ∃ t, exec (.update a) s = .next t ∧ t.target = newTarget s.cfg s.target a := by
  change ∃ t, execUpdate a s = .next t ∧ _
  rw [execUpdate_of_initDone h]
  split_ifs <;> exact ⟨_, rfl, updateEngine_target a s⟩

theorem assemble_tick {x y l : AsmOperand} {a b r : Word} (hx : asmPattern x = .ok a) (hy : asmPattern y = .ok b)
    (hl : asmPattern l = .ok r) : assemble (.tick x y l) = .ok [.push a b, .update r] := by
  rw [assemble, hx, hy, hl]
  rfl

theorem assemble_tickio {x y l : AsmOperand} {a b r : Word} (hx : asmPattern x = .ok a) (hy : asmPattern y = .ok b)
    (hl : asmPattern l = .ok r) : assemble (.tickio x y l) = .ok [.push a b, .update r, .dout, .rout] := by
  rw [assemble, hx, hy, hl]
  rfl

/-- Settles O59: the expansions by the assembler's equations; HOLD's request of 0 samples is no accepted delay. -/
theorem pseudoInstructionsExpandInOrder : Obligations.PseudoInstructionsExpandInOrder := by
  refine ⟨fun x y l a b r hx hy hl => ⟨assemble_tick hx hy hl, assemble_tickio hx hy hl⟩, rfl, fun s hc hd => ?_⟩
  obtain ⟨t, ht, htarget⟩ := execUpdate_target hd 0
  exact ⟨t, ht, htarget.trans (newTarget_zero hc s.target)⟩

end Sys2Proof.Machine
end

section
/-! PROOF. The control statements (41_control): NOP, INIT, RESET and the reserved opcode as full next states, and cause 1
before INIT. -/

namespace Sys2Proof.Machine

/-- Settles O20: NOP is its response. -/
theorem nopOnlyResponds : Obligations.NopOnlyResponds := fun _ => rfl

/-- Settles O25: the reserved opcode raises cause 4, which is bit 4 of STATUS. -/
theorem reservedOpcodeAlwaysFaults : Obligations.ReservedOpcodeAlwaysFaults := fun _ => rfl

/-! INIT: one equation for each outcome (R69) -/

theorem execInit_of_initDone {s : State} (h : s.initDone = true) (a b : Word) :
    execInit a b s = .next (raiseFault .reinit s) := if_pos h

theorem execInit_of_not_initDone {s : State} (h : s.initDone = false) (a b : Word) :
    execInit a b s =
      if basesOk s.cfg a.toNat b.toNat then
        .next (respond false 0
          { s with baseIn := a, baseFb := b, wpIn := 0, wpFb := 0, status := setStatusBit s.status 0 })
      else .next (raiseFault .badBase s) := if_neg (by simp [h])

/-- The ways to fail INIT's checks: a misaligned base, a region past the top of the address space, an overlap. -/
theorem basesOk_eq_false_iff {c : Config} {a b : Nat} :
    basesOk c a b = false ↔
      a % 4 ≠ 0 ∨ b % 4 ≠ 0 ∨ addressSpace < a + 4 * c.capIn ∨ addressSpace < b + 4 * c.capFb ∨
        ¬ (a + 4 * c.capIn ≤ b ∨ b + 4 * c.capFb ≤ a) := by
  rw [← Bool.not_eq_true, basesOk_iff]
  omega

/-- Settles O21, by INIT_DONE and then by the checks on the bases. -/
theorem initBindsTheRings : Obligations.InitBindsTheRings := by
  refine fun s a b => ⟨fun hd ha hb hin hfb hdisj => ?_, fun hd => execInit_of_initDone hd a b, fun hd hfail => ?_⟩
  · have hok : basesOk s.cfg a.toNat b.toNat = true := basesOk_iff.mpr ⟨⟨ha, hb⟩, ⟨hin, hfb⟩, hdisj⟩
    exact (execInit_of_not_initDone hd a b).trans (if_pos hok)
  · have hbad : basesOk s.cfg a.toNat b.toNat = false := basesOk_eq_false_iff.mpr hfail
    exact (execInit_of_not_initDone hd a b).trans (if_neg (by simp [hbad]))

/-! The dispatch's check (R67) -/

/-- Settles O26: each of the five commands stands behind the dispatch's check, which raises cause 1. -/
theorem commandsBeforeInitFault : Obligations.CommandsBeforeInitFault := by
  rintro s i hd (rfl | ⟨a, b, rfl⟩ | ⟨a, rfl⟩ | rfl | rfl) <;> exact whenInitDone_of_not_initDone hd _

/-! RESET (R70) -/

theorem execReset_of_initDone {s : State} (h : s.initDone = true) :
    execReset s = .next (respond false 0 (resetEngine s)) := whenInitDone_of_initDone h _

/-- EFF's reset value, `RESET_TARGET << 8` in 32 bits, whatever is shifted out. -/
theorem ofNat_shiftLeft_eight (n : Nat) : BitVec.ofNat 32 n <<< 8 = BitVec.ofNat 32 (n * 2 ^ 8) := by
  apply BitVec.eq_of_toNat_eq
  simp [Nat.shiftLeft_eq]

/-- Settles O23: once INIT is done RESET is its assignments and the response; before, it is one of O26's commands. -/
theorem resetRederivesTheEngine : Obligations.ResetRederivesTheEngine := by
  refine fun s => ⟨fun hd => ?_, fun hd => commandsBeforeInitFault s .reset hd (.inl rfl)⟩
  rw [ofNat_shiftLeft_eight]
  exact execReset_of_initDone hd

/-- Where both slots are Inactive ROUT's effect is the response 0: neither slot's turn makes a read
(45_grain_engine R95). -/
theorem reverseOutput_of_inactive {s : State} (h0 : s.grain0.active = false) (h1 : s.grain1.active = false) :
    reverseOutput s = .ok (respond false 0 s) :=
  except_bind_eq_ok.mpr ⟨_, addGrain_inactive h0 0 s, except_bind_eq_ok.mpr ⟨_, addGrain_inactive h1 0 s, rfl⟩⟩

theorem execRout_of_inactive {s : State} (hd : s.initDone = true) (h0 : s.grain0.active = false)
    (h1 : s.grain1.active = false) : execRout s = .next (respond false 0 s) := by
  rw [execRout, whenInitDone_of_initDone hd, reverseOutput_of_inactive h0 h1, Result.ofExcept]

/-- A cleared slot is Inactive (10_state R22, 45_grain_engine R90). -/
theorem cleared_active : Grain.cleared.active = false := by decide

/-- Settles O24: the state after RESET keeps INIT_DONE, already has the values RESET assigns, and has both slots cleared,
so Inactive. -/
theorem resetIsIdempotentAndSilent : Obligations.ResetIsIdempotentAndSilent := by
  refine fun s hd => ⟨respond false 0 (resetEngine s), execReset_of_initDone hd, ?_, ?_⟩
  · exact execReset_of_initDone (s := respond false 0 (resetEngine s)) hd
  · exact execRout_of_inactive (s := respond false 0 (resetEngine s)) hd cleared_active cleared_active

end Sys2Proof.Machine
end

section
/-! PROOF. The ring statements (42_ring_buffer): PUSH as a full next state, what it makes of each ring's elements, and the
history that a list of pushes leaves in the rings. -/

namespace Sys2Proof.Machine

/-! Ring elements: which index names which element (R72, R76) -/

/-- Masking an index before an offset is added is the same as masking the sum. -/
theorem ringIdx_ringIdx_add (c : Config) (r : Ring) (k j : Int) :
    ringIdx c r (ringIdx c r k + j) = ringIdx c r (k + j) := by
  have hcap : (ringCap c r : Int) ≠ 0 := by exact_mod_cast (ringCap_pos c r).ne'
  unfold ringIdx
  rw [Int.toNat_of_nonneg (Int.emod_nonneg k hcap), Int.emod_add_emod]

/-- Two indices name one element exactly where the capacity divides their difference. -/
theorem ringIdx_eq_iff (c : Config) (r : Ring) (k l : Int) :
    ringIdx c r k = ringIdx c r l ↔ k ≡ l [ZMOD ringCap c r] := by
  have hcap : (ringCap c r : Int) ≠ 0 := by exact_mod_cast (ringCap_pos c r).ne'
  have hk := Int.emod_nonneg k hcap
  have hl := Int.emod_nonneg l hcap
  unfold ringIdx Int.ModEq
  omega

/-- Going up from an index by less than the capacity, and not by 0, ends at another element. -/
theorem ringIdx_add_ne {c : Config} {r : Ring} {j : Nat} (k : Int) (hpos : 0 < j) (hlt : j < ringCap c r) :
    ringIdx c r (k + j) ≠ ringIdx c r k := by
  intro h
  have hdvd : (ringCap c r : Int) ∣ k + j - k := ((ringIdx_eq_iff c r _ _).mp h).symm.dvd
  rw [add_sub_cancel_left, Int.natCast_dvd_natCast] at hdvd
  exact (Nat.le_of_dvd hpos hdvd).not_gt hlt

/-- Reading a ring is periodic in its capacity (R76). -/
theorem ringWord_add_cap (s : State) (r : Ring) (k : Int) : s.ringWord r (k + ringCap s.cfg r) = s.ringWord r k := by
  rw [State.ringWord, ringAddr, ringIdx_add_cap, State.ringWord, ringAddr]

/-- A word written to a ring element is read back at every index of that element; the ring's other elements keep what
they hold. -/
theorem word_setWord_ringAddr {m : Memory} (hm : m.Canonical) (s : State) (r : Ring) (k l : Int) (v : Word) :
    (m.setWord (ringAddr s r l) v).word (ringAddr s r k) =
      if ringIdx s.cfg r k = ringIdx s.cfg r l then v else m.word (ringAddr s r k) := by
  split_ifs with h
  · rw [ringAddr, ringAddr, h]
    exact word_setWord hm _ v
  · exact word_setWord_disjoint hm v (by unfold ringAddr; omega)

/-! PUSH as a function of the state (R75) -/

/-- The rings can be pushed to and read: INIT is done, the bases passed its checks, and the memory is canonical. -/
structure State.RingsReady (s : State) : Prop where
  initDone : s.initDone = true
  bases : basesOk s.cfg s.baseIn.toNat s.baseFb.toNat = true
  canonical : s.mem.Canonical

/-- The operand of a push that goes to the ring `r`. -/
def ringSample (r : Ring) (p : Word × Word) : Word :=
  match r with
  | .inp => p.1
  | .fb => p.2

/-- The memory after a push: the IN write, then the FB write. -/
def pushedMem (a b : Word) (s : State) : Memory :=
  (s.mem.setWord (ringAddr s .inp ((s.wpIn : Int) - 1)) a).setWord (ringAddr s .fb ((s.wpFb : Int) - 1)) b

/-- The state after a push. -/
def pushed (a b : Word) (s : State) : State :=
  { s with
    wpIn := pushedWp s .inp, wpFb := pushedWp s .fb, mem := pushedMem a b s
    bus := s.bus ++
      [.write (ringAddr s .inp ((s.wpIn : Int) - 1)) a, .write (ringAddr s .fb ((s.wpFb : Int) - 1)) b]
    responses := s.responses ++ [⟨false, 0⟩] }

/-- The address PUSH writes to is the element below the old pointer's: masking twice is masking once. -/
theorem ringAddr_pushedWp (s : State) (r : Ring) : ringAddr s r (pushedWp s r) = ringAddr s r ((s.wp r : Int) - 1) :=
  ringAddr_ringIdx s r _

/-- PUSH answers `pushed`. -/
theorem exec_push {s : State} (h : s.RingsReady) (a b : Word) : exec (.push a b) s = .next (pushed a b s) := by
  change whenInitDone s (Result.ofExcept (pushBoth a b s)) = _
  rw [whenInitDone_of_initDone h.initDone, pushBoth_of_basesOk h.bases, ringAddr_pushedWp, ringAddr_pushedWp,
    List.append_assoc]
  rfl

@[simp] theorem pushed_cfg (a b : Word) (s : State) : (pushed a b s).cfg = s.cfg := rfl

@[simp] theorem pushed_wp (a b : Word) (s : State) (r : Ring) : (pushed a b s).wp r = pushedWp s r := by cases r <;> rfl

@[simp] theorem ringAddr_pushed (a b : Word) (s : State) (r : Ring) (k : Int) :
    ringAddr (pushed a b s) r k = ringAddr s r k := by cases r <;> rfl

section
variable {s : State} (h : s.RingsReady) (a b : Word)
include h

/-- A ring write keeps the memory canonical. -/
theorem canonical_setWord_ringAddr {m : Memory} (hm : m.Canonical) (r : Ring) (k : Int) (v : Word) :
    (m.setWord (ringAddr s r k) v).Canonical :=
  canonical_setWord hm (accessError_eq_none.mp (accessError_ringAddr h.bases r k)).2 v

/-- After a push the rings can be pushed to again. -/
theorem ringsReady_pushed : (pushed a b s).RingsReady where
  initDone := h.initDone
  bases := h.bases
  canonical := canonical_setWord_ringAddr h (canonical_setWord_ringAddr h h.canonical _ _ _) _ _ _

/-- A push leaves the bytes outside its two words alone. -/
theorem byte_pushedMem_outside {x : Nat}
    (hin : x < ringAddr s .inp ((s.wpIn : Int) - 1) ∨ ringAddr s .inp ((s.wpIn : Int) - 1) + 4 ≤ x)
    (hfb : x < ringAddr s .fb ((s.wpFb : Int) - 1) ∨ ringAddr s .fb ((s.wpFb : Int) - 1) + 4 ≤ x) :
    (pushedMem a b s).byte x = s.mem.byte x := by
  rw [pushedMem, byte_setWord_outside (canonical_setWord_ringAddr h h.canonical _ _ _) b hfb,
    byte_setWord_outside h.canonical a hin]

/-- After a push each ring holds its operand at the element of the new pointer and is otherwise as before: the write to
the other ring does not reach it. -/
theorem ringWord_pushed (r : Ring) (k : Int) :
    (pushed a b s).ringWord r k =
      if ringIdx s.cfg r k = pushedWp s r then ringSample r (a, b) else s.ringWord r k := by
  have hm := canonical_setWord_ringAddr h h.canonical .inp ((s.wpIn : Int) - 1) a
  rw [State.ringWord, ringAddr_pushed]
  change (pushedMem a b s).word _ = _
  cases r with
  | inp =>
    rw [pushedMem, word_setWord_disjoint hm b (ringAddr_disjoint h.bases _ _), word_setWord_ringAddr h.canonical]
    rfl
  | fb =>
    rw [pushedMem, word_setWord_ringAddr hm, word_setWord_disjoint h.canonical a (ringAddr_disjoint h.bases _ _).symm]
    rfl

/-- The element of age 0 after a push is the push's operand. -/
theorem ringWord_pushed_newest (r : Ring) :
    (pushed a b s).ringWord r ((pushed a b s).wp r) = ringSample r (a, b) := by
  rw [ringWord_pushed h, pushed_wp]
  exact if_pos (ringIdx_of_lt (ringIdx_lt s.cfg r _))

end

/-- From the pointer a push leaves, age `d + 1` is the index that was age `d` (R76). -/
theorem ringIdx_pushedWp_succ (s : State) (r : Ring) (d : Nat) :
    ringIdx s.cfg r ((pushedWp s r : Int) + (d + 1 : Nat)) = ringIdx s.cfg r ((s.wp r : Int) + d) := by
  rw [pushedWp, ringIdx_ringIdx_add]
  congr 1
  push_cast
  ring

/-- Whatever the memory of `s` holds, its element of age `d + 1` by the pointer after a push is the one of age `d` by the
pointer before. -/
theorem ringWord_pushedWp_succ {s t : State} (hcfg : t.cfg = s.cfg) (r : Ring) (d : Nat) :
    s.ringWord r ((pushedWp t r : Int) + (d + 1 : Nat)) = s.ringWord r ((t.wp r : Int) + d) := by
  rw [State.ringWord, ringAddr, ← hcfg, ringIdx_pushedWp_succ, hcfg, State.ringWord, ringAddr]

/-- A push makes every sample one older, up to the capacity: the one it drops is the oldest. -/
theorem ringWord_pushed_succ {s : State} (h : s.RingsReady) (a b : Word) {r : Ring} {d : Nat}
    (hd : d + 1 < ringCap s.cfg r) :
    (pushed a b s).ringWord r (((pushed a b s).wp r : Int) + (d + 1 : Nat)) = s.ringWord r ((s.wp r : Int) + d) := by
  have hne : ringIdx s.cfg r ((pushedWp s r : Int) + (d + 1 : Nat)) ≠ pushedWp s r := by
    have hmasked : ringIdx s.cfg r (pushedWp s r) = pushedWp s r := ringIdx_of_lt (ringIdx_lt s.cfg r _)
    exact fun heq => ringIdx_add_ne _ d.succ_pos hd (heq.trans hmasked.symm)
  rw [ringWord_pushed h, pushed_wp, if_neg hne, ringWord_pushedWp_succ rfl]

/-- Settles O27: the state is `pushed`, whose pointers and addresses are the ones R75 computes; before INIT it is one of
O26's commands. -/
theorem pushStoresBothSamples : Obligations.PushStoresBothSamples := by
  refine fun s a b => ⟨fun hd hbases hmem => ?_,
    fun hd => commandsBeforeInitFault s (.push a b) hd (.inr (.inl ⟨a, b, rfl⟩))⟩
  have hready : s.RingsReady := ⟨hd, hbases, hmem⟩
  have hin : (pushed a b s).ringWord .inp ((s.wpIn : Int) - 1) = a :=
    (ringWord_pushed hready a b .inp _).trans (if_pos rfl)
  have hfb : (pushed a b s).ringWord .fb ((s.wpFb : Int) - 1) = b :=
    (ringWord_pushed hready a b .fb _).trans (if_pos rfl)
  exact ⟨pushedMem a b s, exec_push hready a b, hin, hfb, fun _ => byte_pushedMem_outside hready a b⟩

/-! A list of pushes (R76, R77) -/

/-- Commands that answer are followed by the rest from where they end. -/
theorem execAll_append {is js : List Instr} {s t : State} (h : execAll is s = .next t) :
    execAll (is ++ js) s = execAll js t := by
  induction is generalizing s with
  | nil =>
    cases h
    rfl
  | cons i is ih =>
    cases hi : exec i s with
    | next u =>
      simp only [execAll, List.cons_append, hi] at h ⊢
      exact ih h
    | fault f => simp [execAll, hi] at h
    | refused r => simp [execAll, hi] at h

/-- The pushes `ps` lead from `s` to `t`, as far as the rings show: each holds the operands of `ps`, the last one at age 0,
and behind them what it held before. -/
structure PushHistory (s : State) (ps : List (Word × Word)) (t : State) : Prop where
  ready : t.RingsReady
  cfg : t.cfg = s.cfg
  word : ∀ (r : Ring) (d : Nat), d < ringCap s.cfg r →
    t.ringWord r ((t.wp r : Int) + d) =
      if d < ps.length then ringSample r (ps.reverse.getD d (0, 0)) else s.ringWord r ((t.wp r : Int) + d)

theorem pushHistory_nil {s : State} (h : s.RingsReady) : PushHistory s [] s where
  ready := h
  cfg := rfl
  word r d _ := by simp

/-- One push more: age 0 is its operand, and age `d + 1` is what age `d` was. -/
theorem pushHistory_pushed {s t : State} {ps : List (Word × Word)} (h : PushHistory s ps t) (p : Word × Word) :
    PushHistory s (ps ++ [p]) (pushed p.1 p.2 t) where
  ready := ringsReady_pushed h.ready p.1 p.2
  cfg := h.cfg
  word r d hd := by
    cases d with
    | zero => simpa using ringWord_pushed_newest h.ready p.1 p.2 r
    | succ d =>
      rw [ringWord_pushed_succ h.ready p.1 p.2 (h.cfg.symm ▸ hd), h.word r d (by omega), pushed_wp,
        ringWord_pushedWp_succ h.cfg]
      simp

/-- Pushes from a state whose rings are ready all answer, and the rings hold their history. -/
theorem execAll_push {s : State} (h : s.RingsReady) (ps : List (Word × Word)) :
    ∃ t, execAll (ps.map fun p => Instr.push p.1 p.2) s = .next t ∧ PushHistory s ps t := by
  induction ps using List.reverseRecOn with
  | nil => exact ⟨s, rfl, pushHistory_nil h⟩
  | append_singleton ps p ih =>
    obtain ⟨t, ht, hist⟩ := ih
    refine ⟨pushed p.1 p.2 t, ?_, pushHistory_pushed hist p⟩
    rw [List.map_append, execAll_append ht]
    simp [execAll, exec_push hist.ready]

/-- Settles O28, by induction on the pushes from the last one back: each makes every sample one older. -/
theorem ringsHoldThePushHistory : Obligations.RingsHoldThePushHistory := by
  intro s ps hd hbases hmem
  obtain ⟨t, ht, hist⟩ := execAll_push ⟨hd, hbases, hmem⟩ ps
  exact ⟨t, ht, hist.word .inp, hist.word .fb,
    fun k => hist.cfg ▸ ⟨ringWord_add_cap t .inp k, ringWord_add_cap t .fb k⟩⟩

end Sys2Proof.Machine
end

section
/-! PROOF. The smoother statements (43_delay_smoother): which request becomes the target, and what one UPDATE and a run of
UPDATEs leave of EFF's distance to it. -/

namespace Sys2Proof.Machine

/-! UPDATE's first two steps are all that TARGET and EFF see of it (R80) -/

/-- UPDATE after INIT completes, by an answer or by cause 5, with TARGET and EFF as the smoother leaves them. -/
theorem exec_update_smooth {s : State} (h : s.initDone = true) (a : Word) :
    ∃ t, exec (.update a) s = .next t ∧ t.target = newTarget s.cfg s.target a ∧
      t.eff = newEff s.cfg (newTarget s.cfg s.target a) s.eff := by
  change ∃ t, execUpdate a s = .next t ∧ _
  rw [execUpdate_of_initDone h]
  split_ifs <;> exact ⟨_, rfl, updateEngine_target a s, updateEngine_eff a s⟩

/-! The target (R78) -/

theorem newTarget_of_inRange {c : Config} {a : Word} (hlo : (c.minGrainSize : Int) ≤ a.toInt)
    (hhi : a.toInt ≤ (c.maxGrainSize : Int)) (target : Word) : newTarget c target a = a :=
  (if_pos ⟨hlo, hhi⟩).trans BitVec.ofInt_toInt

theorem newTarget_of_outOfRange {c : Config} {a : Word}
    (h : a.toInt < (c.minGrainSize : Int) ∨ (c.maxGrainSize : Int) < a.toInt) (target : Word) :
    newTarget c target a = target :=
  if_neg fun ⟨hlo, hhi⟩ => h.elim hlo.not_gt hhi.not_gt

/-- The same request again leaves the target it has set. -/
theorem newTarget_newTarget (c : Config) (target a : Word) :
    newTarget c (newTarget c target a) a = newTarget c target a := by
  unfold newTarget
  split_ifs <;> rfl

/-- Settles O30: UPDATE's first step takes or ignores the request, and its other steps leave TARGET. -/
theorem requestInRangeBecomesTheTarget : Obligations.RequestInRangeBecomesTheTarget := by
  intro s a hd
  obtain ⟨t, ht, htarget, -⟩ := exec_update_smooth hd a
  exact ⟨t, ht, fun hlo hhi => htarget.trans (newTarget_of_inRange hlo hhi s.target),
    fun hout => htarget.trans (newTarget_of_outOfRange hout s.target)⟩

/-! The distance a step leaves (R79, R81) -/

/-- What one step leaves of the distance `x`, in natural numbers. -/
def scaled (c : Config) (x : Nat) : Nat := x * c.smoothK / 2 ^ c.smoothShift

theorem scaledDiff_natCast (c : Config) (x : Nat) : scaledDiff c x = scaled c x := by
  simp [scaledDiff, mulsh, asr, scaled]

@[simp] theorem scaled_zero (c : Config) : scaled c 0 = 0 := by simp [scaled]

/-- A distance that is not 0 shrinks, as SMOOTH_K < 2^SMOOTH_SHIFT. -/
theorem scaled_lt {c : Config} (hc : c.SmoothOk) {x : Nat} (hx : 0 < x) : scaled c x < x := by
  obtain ⟨-, -, hk⟩ := hc
  exact Nat.div_lt_of_lt_mul (by rw [mul_comm]; exact Nat.mul_lt_mul_of_pos_right hk hx)

theorem scaled_le {c : Config} (hc : c.SmoothOk) (x : Nat) : scaled c x ≤ x := by
  obtain rfl | hx := x.eq_zero_or_pos
  · exact (scaled_zero c).le
  · exact (scaled_lt hc hx).le

/-- A step from `x` below the target, which is a 23-bit number of samples, ends `scaled x` below it. -/
theorem newEff_from_below {c : Config} (hc : c.SmoothOk) {target eff : Word} {x : Nat} (htarget : target.toNat < 2 ^ 23)
    (hx : eff.toNat + x = target.toNat * 256) :
    (newEff c target eff).toNat + scaled c x = target.toNat * 256 := by
  have hle := scaled_le hc x
  obtain rfl | hpos := x.eq_zero_or_pos
  · rw [newEff_arrived (by rw [targetQ8]; omega), scaled_zero, hx]
  · have hdiff : targetQ8 target - eff.toNat = x := by rw [targetQ8]; omega
    rw [newEff_below (by omega), hdiff, scaledDiff_natCast, targetQ8]
    have hnew := toNat_trunc32 (v := (target.toNat : Int) * 2 ^ 8 - scaled c x) (by omega) (by omega)
    omega

/-- A step from `x` above the target ends `scaled x` above it. -/
theorem newEff_from_above {c : Config} (hc : c.SmoothOk) {target eff : Word} {x : Nat}
    (hx : eff.toNat = target.toNat * 256 + x) :
    (newEff c target eff).toNat = target.toNat * 256 + scaled c x := by
  have hle := scaled_le hc x
  obtain rfl | hpos := x.eq_zero_or_pos
  · rw [newEff_arrived (by rw [targetQ8]; omega), scaled_zero, hx]
  · have hdiff : eff.toNat - targetQ8 target = x := by rw [targetQ8]; omega
    rw [newEff_above (by omega), hdiff, scaledDiff_natCast, targetQ8]
    have hnew := toNat_trunc32 (v := (target.toNat : Int) * 2 ^ 8 + scaled c x) (by omega) (by omega)
    omega

/-- All that one step can do to EFF: from `eff` to `eff'` it keeps its side of `dst` and the scaled distance is left. -/
inductive SmootherStep (c : Config) (dst eff eff' : Nat) : Prop
  | below (x : Nat) (h : eff + x = dst) (h' : eff' + scaled c x = dst)
  | above (x : Nat) (h : eff = dst + x) (h' : eff' = dst + scaled c x)

theorem newEff_step {c : Config} (hc : c.SmoothOk) {target : Word} (htarget : target.toNat < 2 ^ 23) (eff : Word) :
    SmootherStep c (target.toNat * 256) eff.toNat (newEff c target eff).toNat := by
  obtain h | h := le_total eff.toNat (target.toNat * 256)
  · obtain ⟨x, hx⟩ := Nat.exists_eq_add_of_le h
    exact .below x hx.symm (newEff_from_below hc htarget hx.symm)
  · obtain ⟨x, hx⟩ := Nat.exists_eq_add_of_le h
    exact .above x hx (newEff_from_above hc hx)

/-- In range, TARGET stays a 23-bit number of samples. -/
theorem newTarget_lt {s : State} (hc : s.cfg.Accepted) (hdelay : s.DelayOk) (a : Word) :
    (newTarget s.cfg s.target a).toNat < 2 ^ 23 := by
  obtain ⟨-, -, hmax⟩ := sizesOk_of_accepted hc
  obtain ⟨htarget, -⟩ := hdelay
  obtain ⟨-, hhi⟩ := newTarget_inRange a htarget
  omega

/-- UPDATE after INIT with TARGET and EFF in range: EFF makes a step toward the new target. -/
theorem exec_update_smootherStep {s : State} (hc : s.cfg.Accepted) (hdelay : s.DelayOk) (hd : s.initDone = true)
    (a : Word) :
    ∃ t, exec (.update a) s = .next t ∧ t.target = newTarget s.cfg s.target a ∧
      SmootherStep s.cfg (t.target.toNat * 256) s.eff.toNat t.eff.toNat := by
  obtain ⟨t, ht, htarget, heff⟩ := exec_update_smooth hd a
  refine ⟨t, ht, htarget, ?_⟩
  rw [heff, htarget]
  exact newEff_step (smoothOk_of_accepted hc) (newTarget_lt hc hdelay a) s.eff

/-- Settles O31, by the side EFF is on: the step's distance is the one found there. -/
theorem smootherLeavesTheScaledDistance : Obligations.SmootherLeavesTheScaledDistance := by
  intro s a hc hdelay hd
  obtain ⟨t, ht, -, hstep⟩ := exec_update_smootherStep hc hdelay hd a
  refine ⟨t, ht, ?_⟩
  dsimp only
  cases hstep with
  | below x h h' =>
    obtain rfl : t.target.toNat * 256 - s.eff.toNat = x := by omega
    refine ⟨fun _ => Nat.eq_sub_of_add_eq h', fun _ => by omega, fun heq => BitVec.eq_of_toNat_eq ?_⟩
    rw [heq, Nat.sub_self, scaled_zero] at h'
    omega
  | above x h h' =>
    obtain rfl : s.eff.toNat - t.target.toNat * 256 = x := by omega
    refine ⟨fun _ => by omega, fun _ => h', fun heq => BitVec.eq_of_toNat_eq ?_⟩
    rw [heq, Nat.sub_self, scaled_zero] at h'
    omega

/-- Settles O32, by the side EFF is on: a distance of 0 stays 0, and another shrinks. -/
theorem smootherNeverOvershoots : Obligations.SmootherNeverOvershoots := by
  intro s a hc hdelay hd
  obtain ⟨t, ht, -, hstep⟩ := exec_update_smootherStep hc hdelay hd a
  have hsmooth := smoothOk_of_accepted hc
  refine ⟨t, ht, ?_⟩
  dsimp only
  cases hstep with
  | below x h h' =>
    refine ⟨fun hne => ?_, by omega, fun heq => ?_⟩
    · have hlt := scaled_lt hsmooth (x := x) (by omega)
      omega
    · obtain rfl : x = 0 := by omega
      simpa using h'
  | above x h h' =>
    refine ⟨by omega, fun hne => ?_, fun heq => ?_⟩
    · have hlt := scaled_lt hsmooth (x := x) (by omega)
      omega
    · obtain rfl : x = 0 := by omega
      simpa using h'

/-- Settles O35: the two steps start at one distance, so they leave one distance. -/
theorem smootherIsSymmetric : Obligations.SmootherIsSymmetric := by
  intro s s' a x hc hcfg htarget hdelay _ hd hd' hbelow habove
  obtain ⟨t, ht, htargett, hefft⟩ := exec_update_smooth hd a
  obtain ⟨t', ht', htargett', hefft'⟩ := exec_update_smooth hd' a
  rw [hcfg, htarget] at htargett' hefft'
  have hsmooth := smoothOk_of_accepted hc
  refine ⟨t, t', ht, ht', ?_, ?_⟩
  · rw [hefft, htargett]
    exact newEff_from_below hsmooth (newTarget_lt hc hdelay a) hbelow
  · rw [hefft', htargett']
    exact newEff_from_above hsmooth habove

/-! The distance as a number (R81, R82) -/

/-- The distance of EFF from the target: R81's `e`. -/
def smootherGap (target eff : Word) : Nat := ((target.toNat : Int) * 256 - eff.toNat).natAbs

theorem smootherGap_eq_zero_iff {target eff : Word} : smootherGap target eff = 0 ↔ eff.toNat = target.toNat * 256 := by
  unfold smootherGap
  omega

theorem smootherGap_of_below {target eff : Word} {x : Nat} (h : eff.toNat + x = target.toNat * 256) :
    smootherGap target eff = x := by
  unfold smootherGap
  omega

theorem smootherGap_of_above {target eff : Word} {x : Nat} (h : eff.toNat = target.toNat * 256 + x) :
    smootherGap target eff = x := by
  unfold smootherGap
  omega

section
variable {c : Config} {target eff eff' : Word} (hstep : SmootherStep c (target.toNat * 256) eff.toNat eff'.toNat)
include hstep

/-- R81's recurrence. -/
theorem smootherGap_of_step : smootherGap target eff' = scaled c (smootherGap target eff) := by
  cases hstep with
  | below x h h' => rw [smootherGap_of_below h, smootherGap_of_below h']
  | above x h h' => rw [smootherGap_of_above h, smootherGap_of_above h']

/-- EFF keeps its side of the target, so it moves by the difference of the two distances. -/
theorem moved_of_step (hc : c.SmoothOk) :
    ((eff'.toNat : Int) - eff.toNat).natAbs = smootherGap target eff - scaled c (smootherGap target eff) := by
  have hle := scaled_le hc (smootherGap target eff)
  cases hstep with
  | below x h h' =>
    rw [smootherGap_of_below h] at hle ⊢
    omega
  | above x h h' =>
    rw [smootherGap_of_above h] at hle ⊢
    omega

end

/-- TARGET and EFF in range are no further apart than the ends of the range. -/
theorem smootherGap_newTarget_le {s : State} (hdelay : s.DelayOk) (a : Word) :
    smootherGap (newTarget s.cfg s.target a) s.eff ≤ (s.cfg.maxGrainSize - s.cfg.minGrainSize) * 256 := by
  obtain ⟨htarget, heff⟩ := hdelay
  have hnew := newTarget_inRange a htarget
  unfold smootherGap
  omega

/-- What a step takes off the distance `e` is at most the part that is not left, rounded up. -/
theorem sub_scaled_le_ceilDiv {c : Config} (hc : c.SmoothOk) (e : Nat) :
    e - scaled c e ≤ ceilDiv (e * (2 ^ c.smoothShift - c.smoothK)) (2 ^ c.smoothShift) := by
  obtain ⟨-, -, hk⟩ := hc
  have hpow : 0 < 2 ^ c.smoothShift := Nat.two_pow_pos _
  have hceil := le_mul_ceilDiv (e * (2 ^ c.smoothShift - c.smoothK)) hpow
  generalize ceilDiv _ _ = moved at hceil ⊢
  have hleft : e - moved ≤ scaled c e := by
    refine (Nat.le_div_iff_mul_le hpow).mpr ?_
    have hparts : e * 2 ^ c.smoothShift = e * c.smoothK + e * (2 ^ c.smoothShift - c.smoothK) := by
      rw [← mul_add, Nat.add_sub_cancel' hk.le]
    rw [Nat.sub_mul, mul_comm moved]
    omega
  omega

theorem ceilDiv_le_ceilDiv_left {m n : Nat} (h : m ≤ n) (d : Nat) : ceilDiv m d ≤ ceilDiv n d :=
  Nat.div_le_div_right (by omega)

/-- Settles O34: the move is what the step takes off the distance, and the distance is at most the largest one. -/
theorem smootherStepIsBounded : Obligations.SmootherStepIsBounded := by
  intro s a hc hdelay hd
  obtain ⟨t, ht, htarget, hstep⟩ := exec_update_smootherStep hc hdelay hd a
  have hsmooth := smoothOk_of_accepted hc
  have hmoved := moved_of_step hstep hsmooth
  have hbound := hmoved.trans_le (sub_scaled_le_ceilDiv hsmooth _)
  have hlargest := smootherGap_newTarget_le hdelay a
  rw [← htarget] at hlargest
  exact ⟨t, ht, hmoved, hbound, hbound.trans (ceilDiv_le_ceilDiv_left (Nat.mul_le_mul_right _ hlargest) _)⟩

/-! A run of UPDATEs with one request (R81) -/

/-- An UPDATE from a state of the invariant answers, keeps the invariant, and leaves the scaled distance. -/
theorem exec_update_of_inv {s : State} (hinv : s.Inv) (hd : s.initDone = true) (a : Word) :
    ∃ t, exec (.update a) s = .next t ∧ t.Inv ∧ t.initDone = true ∧ t.cfg = s.cfg ∧
      t.target = newTarget s.cfg s.target a ∧
      smootherGap t.target t.eff = scaled s.cfg (smootherGap (newTarget s.cfg s.target a) s.eff) := by
  have ⟨hc, _, _, _, hdelay, _, _⟩ := hinv
  obtain ⟨t, ht, htarget, hstep⟩ := exec_update_smootherStep hc hdelay hd a
  have heffect := exec_effect ht
  obtain ⟨hframe, -⟩ := onlyTheNamedCommandsWriteEachRegister _ s t ht
  obtain ⟨hinit, -⟩ := hframe (by simp)
  refine ⟨t, ht, execEffect_inv heffect hinv, hinit.trans hd, execEffect_cfg heffect, htarget, ?_⟩
  rw [← htarget]
  exact smootherGap_of_step hstep

/-- As many UPDATEs as the distance has LSBs, and one for the request, end at the target. -/
theorem execAll_updates_reach {s : State} (hinv : s.Inv) (hd : s.initDone = true) (a : Word) {n : Nat}
    (hn : smootherGap (newTarget s.cfg s.target a) s.eff ≤ n) :
    ∃ t, execAll (List.replicate (n + 1) (.update a)) s = .next t ∧ t.eff.toNat = t.target.toNat * 256 := by
  induction n generalizing s with
  | zero =>
    obtain ⟨t, ht, -, -, -, -, hgap⟩ := exec_update_of_inv hinv hd a
    refine ⟨t, by simp [execAll, ht], smootherGap_eq_zero_iff.mp ?_⟩
    rw [hgap, Nat.le_zero.mp hn, scaled_zero]
  | succ n ih =>
    have ⟨hc, _⟩ := hinv
    obtain ⟨u, hu, huinv, hud, hcfg, htarget, hgap⟩ := exec_update_of_inv hinv hd a
    have hshrunk : smootherGap (newTarget u.cfg u.target a) u.eff ≤ n := by
      rw [hcfg, htarget, newTarget_newTarget, ← htarget, hgap]
      obtain h | h := Nat.eq_zero_or_pos (smootherGap (newTarget s.cfg s.target a) s.eff)
      · rw [h, scaled_zero]
        exact n.zero_le
      · have hlt := scaled_lt (smoothOk_of_accepted hc) h
        omega
    obtain ⟨t, ht, hreached⟩ := ih huinv hud hshrunk
    refine ⟨t, ?_, hreached⟩
    rw [List.replicate_succ, execAll, hu]
    exact ht

/-- Settles O33: one UPDATE more than the distance to the new target has LSBs is enough. -/
theorem smootherReachesTheTarget : Obligations.SmootherReachesTheTarget := by
  refine fun s a hinv hd => ⟨smootherGap (newTarget s.cfg s.target a) s.eff + 1, fun n hn => ?_⟩
  obtain ⟨m, rfl⟩ : ∃ m, n = m + 1 := ⟨n - 1, by omega⟩
  exact execAll_updates_reach hinv hd a (by omega)

end Sys2Proof.Machine
end

section
/-! PROOF. The DOUT statements (44_fractional_delay): the FIR as an inner product, the coefficient set the selector names, and
the ages of the elements the taps read. -/

namespace Sys2Proof.Machine

/-! The inner product (R86) -/

/-- Tap `j`'s product: the FB element at `base + j` times its coefficient in the set `sel`. -/
def firTerm (s : State) (base : Int) (sel : BitVec 8) (j : Nat) : Int :=
  sampleValue (s.ringWord .fb (base + j)) * (coefPort s.cfg sel (BitVec.ofNat 6 j)).toInt

/-- The exact inner product of TAPS elements of FB with the selected coefficient set, before any wrap (R84-R86). -/
def firSum (s : State) : Int :=
  ∑ j ∈ Finset.range s.cfg.taps, firTerm s (firBase s) (firSelector s.cfg s.eff) j

/-- DOUT's result: the inner product wrapped at 64 bits, shifted and wrapped at 32 (R86). -/
def firOutput (s : State) : Word := trunc32 (asr (trunc64 (firSum s)).toInt s.cfg.coefFrac)

theorem trunc64_add (x y : Int) : trunc64 (x + y) = trunc64 x + trunc64 y := BitVec.ofInt_add x y

/-- A 64-bit pattern is what its signed value wraps to. -/
theorem trunc64_toInt (acc : BitVec 64) : trunc64 acc.toInt = acc := BitVec.ofInt_toInt

/-- The wraps after each add come to one wrap at the end: the loop adds the sum of its taps' products, modulo 2^64. -/
theorem firTaps_acc {base : Int} {sel : BitVec 8} {js : List Nat} {acc acc' : BitVec 64} {s t : State}
    (h : firTaps base sel js acc s = .ok (acc', t)) : acc' = acc + trunc64 (js.map (firTerm s base sel)).sum := by
  induction js generalizing acc s with
  | nil =>
    cases h
    exact (BitVec.add_zero _).symm
  | cons j js ih =>
    obtain ⟨⟨x, u⟩, hu, h⟩ := except_bind_eq_ok.mp h
    obtain ⟨-, rfl, rfl⟩ := memRead_ok hu
    have hstep : acc' = trunc64 (acc.toInt + firTerm s base sel j) + trunc64 (js.map (firTerm s base sel)).sum := (ih h :)
    rw [hstep, trunc64_add, trunc64_toInt, BitVec.add_assoc, List.map_cons, List.sum_cons, trunc64_add]

/-- DOUT's response is `firOutput`, and only the response and the ports' traces change (R87). -/
theorem delayOutput_eq {s t : State} (h : delayOutput s = .ok t) :
    ∃ coefReads, t = respond false (firOutput s) { s with bus := t.bus, coefReads := coefReads } := by
  obtain ⟨⟨y, u⟩, hu, h⟩ := except_bind_eq_ok.mp h
  obtain ⟨⟨acc, v⟩, hv, hu⟩ := except_bind_eq_ok.mp hu
  have hacc : acc = trunc64 (firSum s) := (firTaps_acc hv).trans (BitVec.zero_add _)
  obtain ⟨bus, coefReads, rfl⟩ := firTaps_frame hv
  cases hu
  cases h
  exact ⟨coefReads, by rw [firOutput, ← hacc]; rfl⟩

/-- DOUT as a full next state, but for the coefficient port's trace (log entry 10). -/
theorem exec_dout {s : State} (hd : s.initDone = true) (h : basesOk s.cfg s.baseIn.toNat s.baseFb.toNat = true) :
    ∃ coefReads, exec .dout s = .next (respond false (firOutput s)
      { s with
        bus := s.bus ++ (List.range s.cfg.taps).map fun (j : Nat) => plannedRead s .fb (firBase s + j)
        coefReads := coefReads }) := by
  obtain ⟨t, ht⟩ := delayOutput_of_basesOk h
  obtain ⟨coefReads, heq⟩ := delayOutput_eq ht
  rw [delayOutput_bus ht] at heq
  exact ⟨coefReads, (whenInitDone_of_initDone hd _).trans (ofExcept_eq_next.mpr (ht.trans (congrArg _ heq)))⟩

/-- Settles O48: after INIT the state is the one of `exec_dout`; before it, DOUT is one of O26's commands. -/
theorem doutIsTheInnerProduct : Obligations.DoutIsTheInnerProduct :=
  fun s => ⟨exec_dout, fun hd => commandsBeforeInitFault s .dout hd (by simp)⟩

/-! The selector (R84) -/

theorem tapsOk_of_accepted {c : Config} (h : c.Accepted) : c.TapsOk := by
  obtain ⟨-, htaps, -⟩ := h
  exact htaps

theorem bankOk_of_accepted {c : Config} (h : c.Accepted) : c.BankOk := by
  obtain ⟨-, -, hbank, -⟩ := h
  exact hbank

/-- The port's 8 bits hold the selector whatever BANK_LOG2 is: it is a shifted 8-bit fraction. -/
theorem firSelector_toNat (c : Config) (eff : Word) :
    (firSelector c eff).toNat = effFracPart eff / 2 ^ (8 - c.bankLog2) := by
  have hfrac : effFracPart eff < 2 ^ 8 := Nat.mod_lt _ (by decide)
  rw [firSelector, BitVec.toNat_ofNat]
  exact Nat.mod_eq_of_lt ((Nat.div_le_self _ _).trans_lt hfrac)

/-- The selector is a number of BANK_LOG2 bits. -/
theorem firSelector_lt {c : Config} (hc : c.Accepted) (eff : Word) : (firSelector c eff).toNat < c.bank := by
  obtain ⟨hlog, -, -, -⟩ := bankOk_of_accepted hc
  have hfrac : effFracPart eff < 2 ^ 8 := Nat.mod_lt _ (by decide)
  have hsplit : 2 ^ (8 - c.bankLog2) * 2 ^ c.bankLog2 = 2 ^ 8 := Nat.pow_sub_mul_pow 2 hlog
  rw [firSelector_toNat]
  exact Nat.div_lt_of_lt_mul (hsplit ▸ hfrac)

/-- Settles O49: the bank has BANK = 2^BANK_LOG2 sets. -/
theorem selectorNamesASetOfTheBank : Obligations.SelectorNamesASetOfTheBank := by
  intro c eff hc
  obtain ⟨-, -, hlen, -⟩ := bankOk_of_accepted hc
  have hlt := firSelector_lt hc eff
  exact ⟨firSelector_toNat c eff, hlt, hlen ▸ hlt⟩

/-! The taps' ages (R88) -/

/-- EFF's integer part keeps the bounds of EFF (10_state R32 item 2). -/
theorem effIntPart_bounds {s : State} (h : s.DelayOk) :
    s.cfg.minGrainSize ≤ effIntPart s.eff ∧ effIntPart s.eff ≤ s.cfg.maxGrainSize := by
  obtain ⟨-, hlo, hhi⟩ := h
  unfold effIntPart
  omega

/-- Settles O50: EFF's integer part lies between the sizes, and R7's two tap conditions put the ages in the ring. -/
theorem tapAgesStayInTheRing : Obligations.TapAgesStayInTheRing := by
  intro s j hinv hj age
  obtain ⟨hc, -, -, -, hdelay, -, -⟩ := hinv
  obtain ⟨heven, -, -⟩ := tapsOk_of_accepted hc
  obtain ⟨hold, hnew, -⟩ := fits_of_accepted hc
  have hint := effIntPart_bounds hdelay
  have hage : age = (effIntPart s.eff : Int) - (s.cfg.taps / 2 : Nat) + j := rfl
  refine ⟨congrArg _ ?_, ?_⟩
  · rw [hage, firBase]
    ring
  · omega

/-! A constant history (R89) -/

/-- A constant factors out of the inner product. -/
theorem firSum_of_constant {s : State} {x : Word}
    (h : ∀ j : Nat, j < s.cfg.taps → s.ringWord .fb (firBase s + j) = x) :
    firSum s = x.toInt * ∑ j ∈ Finset.range s.cfg.taps,
      (coefPort s.cfg (firSelector s.cfg s.eff) (BitVec.ofNat 6 j)).toInt := by
  rw [firSum, Finset.mul_sum]
  refine Finset.sum_congr rfl fun j hj => ?_
  rw [firTerm, h j (Finset.mem_range.mp hj), sampleValue]

/-- An inner product of `x * 2^COEF_FRAC` that fits in 64 bits is not changed by the wraps, and shifts down to `x`. -/
theorem firOutput_of_scaled {s : State} {x : Word} (hsum : firSum s = x.toInt * ((2 ^ s.cfg.coefFrac : Nat) : Int))
    (hlo : -(2 ^ 63 : Int) ≤ firSum s) (hhi : firSum s < 2 ^ 63) : firOutput s = x := by
  have hpow : ((2 ^ s.cfg.coefFrac : Nat) : Int) ≠ 0 := by positivity
  rw [firOutput, trunc64, BitVec.toInt_ofInt_eq_self (by decide) hlo hhi, hsum, asr, Int.mul_ediv_cancel _ hpow, trunc32,
    BitVec.ofInt_toInt]

/-- Settles O51: the constant factors out of the sum, which is then `x` in the coefficients' scale. -/
theorem doutOfAConstantIsTheConstant : Obligations.DoutOfAConstantIsTheConstant := by
  intro s x hd hbases hconst hunity hlo hhi
  have hsum : firSum s = x.toInt * ((2 ^ s.cfg.coefFrac : Nat) : Int) := by rw [firSum_of_constant hconst, hunity]
  obtain ⟨coefReads, hexec⟩ := exec_dout hd hbases
  refine ⟨_, hexec, ?_⟩
  rw [respond_responses, firOutput_of_scaled hsum (hsum ▸ hlo) (hsum ▸ hhi)]

end Sys2Proof.Machine
end

section
/-! PROOF. The grain engine's UPDATE (45_grain_engine R91 to R93): the step a length gives, and UPDATE as a full next state
with and without a spawn. -/

namespace Sys2Proof.Machine

/-! The step of R91 and how many steps end a phase (40_fixed_point R65) -/

/-- `ceil_div(m, d)` is the number of steps of size `d` that stay below `m`, counted from 0. -/
theorem mul_lt_iff_lt_ceilDiv {m d : Nat} (hd : 1 ≤ d) (n : Nat) : n * d < m ↔ n < ceilDiv m d := by
  rw [← not_le, ← not_le, mul_comm]
  exact not_congr (ceilDiv_le_iff_le_mul hd).symm

/-- `ceil_div` exceeds the quotient by less than 1. -/
theorem mul_ceilDiv_lt_add (m d : Nat) (hd : 1 ≤ d) : d * ceilDiv m d < m + d := by
  have hle : d * ceilDiv m d ≤ m + d - 1 := Nat.mul_div_le _ _
  omega

theorem grainStep_eq {len : Nat} (h : 1 ≤ len) : grainStep len = ceilDiv one len := if_pos h

/-- Where `len * (len - 1) < ONE` the step is at least `len`, so that all the rounding up of `len` steps is less than one
step: one fewer does not reach ONE. -/
theorem pred_mul_grainStep_lt {len : Nat} (h : 1 ≤ len) (hsq : len * (len - 1) < one) :
    (len - 1) * grainStep len < one := by
  rw [grainStep_eq h]
  have hstep : len - 1 < ceilDiv one len := (mul_lt_iff_lt_ceilDiv h _).mp (by rwa [mul_comm])
  have hround := mul_ceilDiv_lt_add one len h
  rw [Nat.sub_one_mul]
  omega

/-- Settles O39: `ceil_div(ONE, STEP)` is the least number of steps that reach ONE, and `len` of them do. -/
theorem stepEndsThePhaseWithinTheLength : Obligations.StepEndsThePhaseWithinTheLength := by
  intro len hlen
  have hone : one = 2 ^ 28 := rfl
  have hbounds := ceilDiv_one_bounds hlen
  rw [← grainStep_eq hlen] at hbounds
  have hcount := mul_lt_iff_lt_ceilDiv (m := 2 ^ 28) hbounds.1
  have hle : ceilDiv (2 ^ 28) (grainStep len) ≤ len := by
    refine (ceilDiv_le_iff_le_mul hbounds.1).mpr ?_
    rw [grainStep_eq hlen, mul_comm]
    exact le_mul_ceilDiv one hlen
  refine ⟨hbounds, fun n => ?_, hle, fun hsq => ?_⟩
  · rw [← hcount n]
    omega
  · have hlt := (hcount (len - 1)).mp (pred_mul_grainStep_lt hlen hsq)
    omega

/-! UPDATE as a full next state (R92, R93) -/

/-- Whether UPDATE spawns: the origin's advanced phase is at or below the threshold. -/
theorem mustSpawn_advance_smooth_iff {s : State} (a : Word) :
    mustSpawn (grainAdvance (smooth a s)) = true ↔
      ((s.grain s.origin).phase - (s.grain s.origin).step).toInt ≤ (s.cfg.thresh : Int) := by
  simp [mustSpawn_iff]

theorem updateEngine_of_above {s : State} {a : Word}
    (h : (s.cfg.thresh : Int) < ((s.grain s.origin).phase - (s.grain s.origin).step).toInt) :
    updateEngine a s = grainAdvance (smooth a s) :=
  if_neg (mt (mustSpawn_advance_smooth_iff a).mp h.not_ge)

theorem updateEngine_of_reached {s : State} {a : Word}
    (h : ((s.grain s.origin).phase - (s.grain s.origin).step).toInt ≤ (s.cfg.thresh : Int)) :
    updateEngine a s = spawn (grainAdvance (smooth a s)) :=
  if_pos ((mustSpawn_advance_smooth_iff a).mpr h)

/-- UPDATE without cause 5. -/
theorem exec_update_of_not_spawnsEmpty {s : State} {a : Word} (hd : s.initDone = true)
    (h : spawnsEmpty (grainAdvance (smooth a s)) = false) :
    exec (.update a) s = .next (respond false 0 (updateEngine a s)) :=
  (execUpdate_of_initDone hd a).trans (if_neg (by simp [h]))

/-- Settles O36: above the threshold nothing is spawned, so UPDATE is the smoother and the advance. -/
theorem updateAdvancesBothSlots : Obligations.UpdateAdvancesBothSlots := by
  intro s a hd habove
  have hno : spawnsEmpty (grainAdvance (smooth a s)) = false :=
    Bool.and_eq_false_imp.mpr fun hmust => absurd ((mustSpawn_advance_smooth_iff a).mp hmust) habove.not_ge
  rw [exec_update_of_not_spawnsEmpty hd hno, updateEngine_of_above habove]
  rfl

/-- Settles O37: at the threshold UPDATE ends in the spawn, of a length that is not 0. -/
theorem updateSpawnsAtTheThreshold : Obligations.UpdateSpawnsAtTheThreshold := by
  intro s a hd hreached eff len step hlen
  have hlength : grainLen (grainAdvance (smooth a s)).eff = len := rfl
  have hno : spawnsEmpty (grainAdvance (smooth a s)) = false := by
    simp only [spawnsEmpty, hlength, Bool.and_eq_false_iff]
    exact .inr (decide_eq_false (by omega))
  have hstep : BitVec.ofNat 32 (grainStep len) = step := by rw [grainStep_eq hlen]; rfl
  rw [exec_update_of_not_spawnsEmpty hd hno, updateEngine_of_reached hreached, spawn, spawnedGrain, hlength, hstep,
    grainAdvance_origin, smooth_origin]
  generalize s.origin = o
  cases o <;> rfl

end Sys2Proof.Machine
end

section
/-! PROOF. What the invariant says of the two grain slots, before and after an UPDATE: the origin and the predecessor, no wrap,
and how far back the slots read (45_grain_engine R96, R97). -/

namespace Sys2Proof.Machine

/-! The slots of a state of the invariant -/

/-- The accepted configuration and the two cases of the grain slots. -/
theorem grainsOk_of_inv {s : State} (h : s.Inv) : s.cfg.Accepted ∧ s.GrainsOk := by
  obtain ⟨hc, -, -, -, -, -, hgrains⟩ := h
  exact ⟨hc, hgrains⟩

/-- Slots not yet started are cleared, both of them. -/
theorem grain_of_fresh {s : State} (h : s.GrainsFresh) (g : Slot) : s.grain g = .cleared := by
  obtain ⟨-, h0, h1⟩ := h
  cases g with
  | zero => exact h0
  | one => exact h1

/-- A slot is the origin or the predecessor: what holds of both when running, and of a cleared slot, holds of every slot. -/
theorem forall_grain_of_grainsOk {P : Grain → Prop} {s : State} (h : s.GrainsOk) (hcleared : P .cleared)
    (hrunning : ∀ o p, GrainsRunning s.cfg o p → P o ∧ P p) (g : Slot) : P (s.grain g) := by
  obtain hfresh | hrun := h
  · rwa [grain_of_fresh hfresh]
  · exact (forall_slot (P := fun g => P (s.grain g)) s.origin).mpr (hrunning _ _ hrun) g

/-- No counter of a running slot exceeds half of MAX_GRAIN_SIZE: the origin has made less than half the steps of its length,
and the predecessor at most half of its own before that. -/
theorem grainsRunning_counter_le {c : Config} (hc : c.Accepted) {o p : Grain} (h : GrainsRunning c o p) :
    o.counter.toNat ≤ c.maxGrainSize / 2 ∧ p.counter.toNat ≤ c.maxGrainSize / 2 := by
  have hocounter := grainsRunning_counter_lt hc h
  obtain ⟨⟨-, holen, hplen⟩, -, -, -, -, hpcounter⟩ := h
  split_ifs at hpcounter <;> omega

theorem counter_le_of_inv {s : State} (h : s.Inv) (g : Slot) : (s.grain g).counter.toNat ≤ s.cfg.maxGrainSize / 2 := by
  obtain ⟨hc, hgrains⟩ := grainsOk_of_inv h
  exact forall_grain_of_grainsOk (P := fun x => x.counter.toNat ≤ s.cfg.maxGrainSize / 2) hgrains (Nat.zero_le _)
    (fun _ _ => grainsRunning_counter_le hc) g

/-- Phases lie above -ONE and steps are at most ONE. -/
theorem phase_step_bounds_of_inv {s : State} (h : s.Inv) (g : Slot) :
    -2 ^ 28 < (s.grain g).phase.toInt ∧ (s.grain g).step.toNat ≤ 2 ^ 28 := by
  obtain ⟨hc, hgrains⟩ := grainsOk_of_inv h
  refine forall_grain_of_grainsOk (P := fun x => -2 ^ 28 < x.phase.toInt ∧ x.step.toNat ≤ 2 ^ 28) hgrains (by decide)
    (fun o p hrun => ?_) g
  obtain ⟨⟨ho, -⟩, hp, -⟩ := grainsRunning_phase_bounds hc hrun
  have hstep := (grainsRunning_step_bounds hrun).2
  obtain ⟨-, ⟨-, hsame⟩, -⟩ := hrun
  exact ⟨⟨by omega, hstep⟩, hp, hsame ▸ hstep⟩

/-- In a state of the invariant an advance is exact (R97 item 5). -/
theorem advance_of_inv {s : State} (h : s.Inv) (g : Slot) :
    (s.grain g).advance.phase.toInt = (s.grain g).phase.toInt - (s.grain g).step.toNat ∧
      (s.grain g).advance.counter.toNat = (s.grain g).counter.toNat + 1 := by
  obtain ⟨hphase, hstep⟩ := phase_step_bounds_of_inv h g
  have hcounter := counter_le_of_inv h g
  obtain ⟨-, -, hmax⟩ := sizesOk_of_accepted (grainsOk_of_inv h).1
  exact ⟨advance_phase_toInt (by omega) hstep, advance_counter_toNat (by omega)⟩

/-- Settles O45: the advance is exact, and the bounds are those of phase, step and counter. -/
theorem advanceNeverWraps : Obligations.AdvanceNeverWraps := by
  intro s g h
  obtain ⟨hphase, hcounter⟩ := advance_of_inv h g
  obtain ⟨hlo, hstep⟩ := phase_step_bounds_of_inv h g
  rw [advance_phase] at hphase
  exact ⟨hphase, by omega, hcounter, Nat.succ_le_succ (counter_le_of_inv h g)⟩

/-- Settles O44: slots not started have phase 0; running ones keep their distance of THRESH in the advance. -/
theorem predecessorIsInactiveWhenRespawned : Obligations.PredecessorIsInactiveWhenRespawned := by
  intro s h hreached
  obtain ⟨hc, hfresh | hrun⟩ := grainsOk_of_inv h
  · rw [grain_of_fresh hfresh]
    decide
  · obtain ⟨⟨ho, hp⟩, -⟩ := grainsRunning_advance_eqs hc hrun
    obtain ⟨-, -, -, ⟨hdist, -⟩, -⟩ := hrun
    rw [thresh_of_accepted hc] at hdist
    rw [advance_phase] at ho hp
    omega

/-! The slots after an UPDATE (R93, R97 items 1 to 3) -/

/-- UPDATE from a state of the invariant answers without cause 5. -/
theorem exec_update_eq {s : State} (h : s.Inv) (hd : s.initDone = true) (a : Word) :
    exec (.update a) s = .next (respond false 0 (updateEngine a s)) :=
  exec_update_of_not_spawnsEmpty hd (spawnsEmpty_of_inv a h)

/-- UPDATE leaves the origin above the threshold: it has stayed there, or it is spawned with phase ONE. -/
theorem thresh_lt_updateEngine (a : Word) {s : State} (hc : s.cfg.Accepted) :
    (s.cfg.thresh : Int) < ((updateEngine a s).grain (updateEngine a s).origin).phase.toInt := by
  obtain hreached | habove := le_or_gt ((s.grain s.origin).phase - (s.grain s.origin).step).toInt (s.cfg.thresh : Int)
  · have hphase : (spawnedGrain (grainAdvance (smooth a s))).phase.toInt = 2 ^ 28 := rfl
    rw [updateEngine_of_reached hreached, spawn_origin, spawn_grain_origin, hphase, thresh_of_accepted hc]
    decide
  · rwa [updateEngine_of_above habove, grainAdvance_origin, smooth_origin, grainAdvance_grain, smooth_grain]

/-- After UPDATE's steps the slots are running. -/
theorem grainsRunning_updateEngine (a : Word) {s : State} (h : s.Inv) :
    GrainsRunning s.cfg ((updateEngine a s).grain (updateEngine a s).origin)
      ((updateEngine a s).grain (updateEngine a s).origin.other) := by
  obtain ⟨hc, hfresh | hrun⟩ := grainsOk_of_inv (inv_updateEngine a h)
  · have habove := thresh_lt_updateEngine a (updateEngine_cfg a s ▸ hc)
    rw [grain_of_fresh hfresh] at habove
    exact absurd (Int.natCast_nonneg _) habove.not_ge
  · rwa [updateEngine_cfg] at hrun

/-- UPDATE changes the origin exactly if it spawns. -/
theorem updateEngine_origin (a : Word) (s : State) :
    (updateEngine a s).origin =
      if ((s.grain s.origin).phase - (s.grain s.origin).step).toInt ≤ (s.cfg.thresh : Int) then s.origin.other
      else s.origin := by
  split_ifs with hreached
  · rw [updateEngine_of_reached hreached, spawn_origin, grainAdvance_origin, smooth_origin]
  · rw [updateEngine_of_above (not_le.mp hreached), grainAdvance_origin, smooth_origin]

/-- Settles O43: the slots are running after the UPDATE, and the origin changes in a spawn only. -/
theorem updateLeavesOneOriginAndOnePredecessor : Obligations.UpdateLeavesOneOriginAndOnePredecessor := by
  intro s a h hd
  obtain ⟨hc, -⟩ := grainsOk_of_inv h
  have hrun := grainsRunning_updateEngine a h
  obtain ⟨ho, -⟩ := grainsRunning_phase_bounds hc hrun
  have hstep := grainsRunning_step_bounds hrun
  obtain ⟨-, ⟨-, hsame⟩, -, ⟨hdist, -⟩, -⟩ := hrun
  have hthresh : (s.cfg.thresh : Int) = 2 ^ 27 := by rw [thresh_of_accepted hc]; rfl
  refine ⟨_, exec_update_eq h hd a, ho, ?_, hsame, hstep, ?_⟩
  · rw [hthresh] at hdist
    exact le_sub_right_of_add_le hdist
  · rw [respond_origin, updateEngine_origin, hthresh]
    split_ifs with hreached
    · exact iff_of_true rfl hreached
    · exact iff_of_false (slot_other_ne s.origin).symm hreached

/-! How far back an Active slot reads (R96) -/

/-- The doubled counter of a running slot that is Active is at most the sum of the two lengths: an Active predecessor was
spawned, so its length is not 0. -/
theorem grainsRunning_two_mul_counter_le {c : Config} (hc : c.Accepted) {o p : Grain} (h : GrainsRunning c o p) :
    2 * o.counter.toNat ≤ o.length.toNat + p.length.toNat ∧
      (p.active = true → 2 * p.counter.toNat ≤ o.length.toNat + p.length.toNat) := by
  have hocounter := grainsRunning_counter_lt hc h
  obtain ⟨-, -, -, -, hnever, hpcounter⟩ := h
  refine ⟨by omega, fun hactive => ?_⟩
  have hphase : 0 < p.phase.toInt := of_decide_eq_true hactive
  rw [if_neg fun hzero => (hnever hzero).not_gt hphase] at hpcounter
  omega

/-- Both slots' lengths, added in either order. -/
theorem length_add_length (s : State) (g : Slot) :
    (s.grain g).length.toNat + (s.grain g.other).length.toNat = s.grain0.length.toNat + s.grain1.length.toNat := by
  cases g with
  | zero => rfl
  | one => exact Nat.add_comm _ _

theorem two_mul_counter_le_of_active {s : State} (h : s.Inv) : ∀ g : Slot, (s.grain g).active = true →
    2 * (s.grain g).counter.toNat ≤ s.grain0.length.toNat + s.grain1.length.toNat := by
  obtain ⟨hc, hfresh | hrun⟩ := grainsOk_of_inv h
  · intro g hactive
    rw [grain_of_fresh hfresh, cleared_active] at hactive
    cases hactive
  · have hcounter := grainsRunning_two_mul_counter_le hc hrun
    rw [length_add_length] at hcounter
    exact (forall_slot s.origin).mpr ⟨fun _ => hcounter.1, hcounter.2⟩

/-- No grain is longer than MAX_GRAIN_SIZE / 2 samples. -/
theorem length_le_of_inv {s : State} (h : s.Inv) (g : Slot) : (s.grain g).length.toNat ≤ s.cfg.maxGrainSize / 2 :=
  forall_grain_of_grainsOk (P := fun x => x.length.toNat ≤ s.cfg.maxGrainSize / 2) (grainsOk_of_inv h).2 (Nat.zero_le _)
    (fun _ _ ⟨⟨_, holen, hplen⟩, _⟩ => ⟨holen, hplen⟩) g

/-- Settles O46: the doubled counter is at most the sum of the lengths, each at most half of MAX_GRAIN_SIZE. -/
theorem activeGrainReadsStayInTheHistory : Obligations.ActiveGrainReadsStayInTheHistory := by
  intro s g h hactive
  have hcounter := two_mul_counter_le_of_active h g hactive
  have hlen0 : s.grain0.length.toNat ≤ _ := length_le_of_inv h .zero
  have hlen1 : s.grain1.length.toNat ≤ _ := length_le_of_inv h .one
  obtain ⟨-, -, hfits⟩ := fits_of_accepted (grainsOk_of_inv h).1
  have hmax : 2 * (s.grain g).counter.toNat ≤ s.cfg.maxGrainSize := by omega
  refine ⟨hcounter, hmax, hfits, fun hages => ?_⟩
  have hage := hages g hactive
  exact ⟨hage, by omega⟩

/-! A tick (R96) -/

@[simp] theorem respond_grain (e : Bool) (d : Word) (s : State) (g : Slot) : (respond e d s).grain g = s.grain g := by
  cases g <;> rfl

@[simp] theorem pushed_grain (a b : Word) (s : State) (g : Slot) : (pushed a b s).grain g = s.grain g := by
  cases g <;> rfl

/-- A slot after UPDATE's steps, but for the one just spawned: it has advanced, and its step may be a new one. -/
theorem updateEngine_grain_kept {a : Word} {s : State} {g : Slot}
    (h : g ≠ (updateEngine a s).origin ∨ (updateEngine a s).origin = s.origin) :
    ∃ step, (updateEngine a s).grain g = { (s.grain g).advance with step := step } := by
  obtain hreached | habove := le_or_gt ((s.grain s.origin).phase - (s.grain s.origin).step).toInt (s.cfg.thresh : Int)
  · have hg : g = s.origin := by
      rw [updateEngine_origin, if_pos hreached] at h
      generalize s.origin = o at h ⊢
      revert h
      cases g <;> cases o <;> decide
    have hkept := spawn_grain_predecessor (grainAdvance (smooth a s))
    rw [grainAdvance_origin, smooth_origin, grainAdvance_grain, smooth_grain] at hkept
    rw [hg, updateEngine_of_reached hreached]
    exact ⟨_, hkept⟩
  · rw [updateEngine_of_above habove]
    exact ⟨(s.grain g).step, by rw [grainAdvance_grain, smooth_grain]; rfl⟩

/-- An origin that was not the origin before was spawned by this UPDATE. -/
theorem updateEngine_grain_spawned {a : Word} {s : State} (h : (updateEngine a s).origin ≠ s.origin) :
    (updateEngine a s).grain (updateEngine a s).origin = spawnedGrain (grainAdvance (smooth a s)) := by
  by_cases hreached : ((s.grain s.origin).phase - (s.grain s.origin).step).toInt ≤ (s.cfg.thresh : Int)
  · rw [updateEngine_of_reached hreached, spawn_origin, spawn_grain_origin]
  · rw [updateEngine_origin, if_neg hreached] at h
    exact absurd rfl h

theorem ringsReady_of_inv {s : State} (h : s.Inv) (hd : s.initDone = true) : s.RingsReady := by
  obtain ⟨-, hmem, hregions, -⟩ := h
  exact ⟨hd, hregions hd, hmem⟩

/-- The state after PUSH and then UPDATE. -/
def ticked (a b r : Word) (s : State) : State := respond false 0 (updateEngine r (pushed a b s))

@[simp] theorem ticked_cfg (a b r : Word) (s : State) : (ticked a b r s).cfg = s.cfg := by simp [ticked]
@[simp] theorem ticked_wpIn (a b r : Word) (s : State) : (ticked a b r s).wpIn = pushedWp s .inp := by
  simp [ticked, pushed]

/-- A slot that the tick does not respawn advances. -/
theorem ticked_grain_kept {a b r : Word} {s : State} {g : Slot}
    (h : g ≠ (ticked a b r s).origin ∨ (ticked a b r s).origin = s.origin) :
    ∃ step, (ticked a b r s).grain g = { (s.grain g).advance with step := step } := by
  simpa [ticked] using updateEngine_grain_kept (a := r) (s := pushed a b s) h

/-- A slot that the tick respawns starts at the newest sample. -/
theorem ticked_grain_spawned {a b r : Word} {s : State} (h : (ticked a b r s).origin ≠ s.origin) :
    ((ticked a b r s).grain (ticked a b r s).origin).counter = 0 ∧
      ((ticked a b r s).grain (ticked a b r s).origin).readStart = pushedWp s .inp := by
  have hgrain := updateEngine_grain_spawned (a := r) (s := pushed a b s) h
  rw [ticked, respond_grain, respond_origin, hgrain]
  exact ⟨rfl, rfl⟩

section
variable {s : State} (h : s.Inv) (hd : s.initDone = true) (a b r : Word)
include h hd

theorem inv_pushed : (pushed a b s).Inv :=
  execEffect_inv (exec_effect (exec_push (ringsReady_of_inv h hd) a b)) h

theorem inv_ticked : (ticked a b r s).Inv := inv_updateEngine r (inv_pushed h hd a b)

/-- A tick from a state of the invariant answers `ticked`. -/
theorem execAll_tick : execAll [.push a b, .update r] s = .next (ticked a b r s) := by
  simp only [execAll, exec_push (ringsReady_of_inv h hd), exec_update_eq (inv_pushed h hd a b) hd, ticked]

end

/-- The pointer goes one down and the read index one up, so the sample read is two older. -/
theorem readAge_of_tick {s t : State} {g : Slot} (hcfg : t.cfg = s.cfg) (hwp : t.wpIn = pushedWp s .inp)
    (hindex : grainReadIndex (t.grain g) = grainReadIndex (s.grain g) + 1) :
    t.readAge g = (s.readAge g + 2) % (s.cfg.capIn : Int) := by
  have hcap : (s.cfg.capIn : Int) ≠ 0 := by exact_mod_cast (ringCap_pos s.cfg .inp).ne'
  have hnew : (pushedWp s .inp : Int) = ((s.wpIn : Int) - 1) % (s.cfg.capIn : Int) :=
    Int.toNat_of_nonneg (Int.emod_nonneg _ hcap)
  rw [State.readAge, State.readAge, hcfg, hwp, hindex, hnew, Int.emod_add_emod, Int.sub_emod_emod]
  congr 1
  ring

/-- A slot that the tick does not respawn reads a sample two older. -/
theorem readAge_ticked_kept {s : State} (h : s.Inv) {a b r : Word} {g : Slot}
    (hg : g ≠ (ticked a b r s).origin ∨ (ticked a b r s).origin = s.origin) :
    (ticked a b r s).readAge g = (s.readAge g + 2) % (s.cfg.capIn : Int) := by
  refine readAge_of_tick (ticked_cfg a b r s) (ticked_wpIn a b r s) ?_
  obtain ⟨step, hgrain⟩ := ticked_grain_kept hg
  have hcounter := (advance_of_inv h g).2
  simp only [grainReadIndex, hgrain, hcounter, advance_readStart]
  push_cast
  ring

theorem readAge_ticked_spawned {s : State} {a b r : Word} (hne : (ticked a b r s).origin ≠ s.origin) :
    (ticked a b r s).readAge (ticked a b r s).origin = 0 := by
  obtain ⟨hcounter, hread⟩ := ticked_grain_spawned hne
  simp [State.readAge, grainReadIndex, hcounter, hread]

/-- An advance only lowers a phase. -/
theorem active_of_advance_active {s : State} (h : s.Inv) {g : Slot} (hactive : (s.grain g).advance.active = true) :
    (s.grain g).active = true := by
  have hnow : 0 < (s.grain g).advance.phase.toInt := of_decide_eq_true hactive
  rw [(advance_of_inv h g).1] at hnow
  exact decide_eq_true (by omega)

/-- A tick keeps the read ages at `2 * COUNTER`: a slot that is Active after it and was not respawned was Active before,
and two samples more do not reach the capacity. -/
theorem tickAges_ticked {s : State} (h : s.Inv) (hd : s.initDone = true) (a b r : Word) (hages : s.TickAges) :
    (ticked a b r s).TickAges := by
  intro g hactive
  by_cases hg : g ≠ (ticked a b r s).origin ∨ (ticked a b r s).origin = s.origin
  · obtain ⟨-, hmax, hfits, -⟩ := activeGrainReadsStayInTheHistory _ g (inv_ticked h hd a b r) hactive
    rw [readAge_ticked_kept h hg]
    obtain ⟨step, hgrain⟩ := ticked_grain_kept hg
    have hcounter : ((ticked a b r s).grain g).counter.toNat = (s.grain g).counter.toNat + 1 := by
      rw [hgrain]
      exact (advance_of_inv h g).2
    have hwas : (s.grain g).active = true := active_of_advance_active h (by rwa [hgrain] at hactive)
    rw [ticked_cfg] at hmax hfits
    rw [hages g hwas, hcounter, Int.emod_eq_of_lt (by omega) (by omega)]
    push_cast
    ring
  · rw [not_or, not_not] at hg
    obtain ⟨rfl, hne⟩ := hg
    rw [readAge_ticked_spawned hne, (ticked_grain_spawned hne).1]
    rfl

/-- Settles O47: the ages of the slots that are kept, of the one that is respawned, and of the Active ones. -/
theorem tickPlaysTheHistoryBackwards : Obligations.TickPlaysTheHistoryBackwards := fun s a b r h hd =>
  ⟨ticked a b r s, execAll_tick h hd a b r, fun _ => readAge_ticked_kept h, readAge_ticked_spawned,
    tickAges_ticked h hd a b r⟩

end Sys2Proof.Machine
end

section
/-! PROOF. The ROUT statements (45_grain_engine R94, R95, R98): the result as a sum over the Active slots, its bound, and the
flat overlap of two grains, with what they need of the window (46_window_lut R100, R101). -/

namespace Sys2Proof.Machine

/-! Interpolation and scaling: a share of a number lies between 0 and the number, also when floored -/

theorem mul_ediv_between {f n : Int} (d : Int) (hn : 0 < n) (hf : 0 ≤ f) (hfn : f ≤ n) :
    min 0 d ≤ d * f / n ∧ d * f / n ≤ max 0 d := by
  obtain h | h := le_total 0 d
  · rw [min_eq_left h, max_eq_right h]
    exact ⟨Int.ediv_nonneg (mul_nonneg h hf) hn.le, Int.ediv_le_of_le_mul hn (mul_le_mul_of_nonneg_left hfn h)⟩
  · rw [min_eq_right h, max_eq_left h]
    refine ⟨Int.le_ediv_of_mul_le hn (mul_le_mul_of_nonpos_left hfn h), Int.ediv_le_of_le_mul hn ?_⟩
    rw [zero_mul]
    exact mul_nonpos_of_nonpos_of_nonneg h hf

/-! The window (46_window_lut R100, R101) -/

/-- R100's interpolation from entry `i` to the next, before it is put into 16 bits. -/
def windowExact (c : Config) (i : BitVec 6) (fr : BitVec 22) : Int :=
  winValue c i + asr ((winValue c (i + 1) - winValue c i) * fr.toNat) 22

theorem windowExact_between (c : Config) (i : BitVec 6) (fr : BitVec 22) :
    min (winValue c i) (winValue c (i + 1)) ≤ windowExact c i fr ∧
      windowExact c i fr ≤ max (winValue c i) (winValue c (i + 1)) := by
  have hshare := mul_ediv_between (winValue c (i + 1) - winValue c i) (f := fr.toNat) (n := 2 ^ 22) (by decide) (by omega)
    (by omega)
  rw [windowExact, asr]
  omega

/-- The window is the interpolation: it lies between two entries, so it fits in their 16 bits. -/
theorem window_toInt (c : Config) (t : BitVec 28) :
    (window c t).toInt = windowExact c (t.extractLsb' 22 6) (t.extractLsb' 0 22) := by
  have hrange (i : BitVec 6) : -2 ^ 15 ≤ winValue c i ∧ winValue c i < 2 ^ 15 :=
    ⟨BitVec.le_toInt _, BitVec.toInt_lt⟩
  have hlow := hrange (t.extractLsb' 22 6)
  have hhigh := hrange (t.extractLsb' 22 6 + 1)
  obtain ⟨hlo, hhi⟩ := windowExact_between c (t.extractLsb' 22 6) (t.extractLsb' 0 22)
  exact BitVec.toInt_ofInt_eq_self (by decide) ((le_min hlow.1 hhigh.1).trans hlo)
    (hhi.trans_lt (max_lt hlow.2 hhigh.2))

/-- A table with entries in a range has its window there. -/
theorem window_mem_range {c : Config} {lo hi : Int} (h : ∀ i, lo ≤ winValue c i ∧ winValue c i ≤ hi) (t : BitVec 28) :
    lo ≤ (window c t).toInt ∧ (window c t).toInt ≤ hi := by
  have hbetween := windowExact_between c (t.extractLsb' 22 6) (t.extractLsb' 0 22)
  have hlow := h (t.extractLsb' 22 6)
  have hhigh := h (t.extractLsb' 22 6 + 1)
  rw [window_toInt]
  omega

/-- Half a period on, the table index is 32 on, and the fraction the same. -/
theorem extractLsb'_add_half (t : BitVec 28) :
    (t + BitVec.ofNat 28 (2 ^ 27)).extractLsb' 22 6 = t.extractLsb' 22 6 + 32 ∧
      (t + BitVec.ofNat 28 (2 ^ 27)).extractLsb' 0 22 = t.extractLsb' 0 22 := by
  have hsum : (t + BitVec.ofNat 28 (2 ^ 27)).toNat = (t.toNat + 2 ^ 27) % 2 ^ 28 := BitVec.toNat_add ..
  refine ⟨BitVec.eq_of_toNat_eq ?_, BitVec.eq_of_toNat_eq ?_⟩
  · rw [BitVec.toNat_add, BitVec.extractLsb'_toNat, BitVec.extractLsb'_toNat, hsum, Nat.shiftRight_eq_div_pow,
      Nat.shiftRight_eq_div_pow, show (32 : BitVec 6).toNat = 32 from rfl]
    omega
  · rw [BitVec.extractLsb'_toNat, BitVec.extractLsb'_toNat, hsum, Nat.shiftRight_zero, Nat.shiftRight_zero]
    omega

/-- Entries half a table apart that sum to 16384 make the interpolations half a period apart sum to 16384, or to one less
where both are floored. -/
theorem windowExact_add_half {c : Config} (h : ∀ i, winValue c i + winValue c (i + 32) = 16384) (i : BitVec 6)
    (fr : BitVec 22) :
    windowExact c i fr + windowExact c (i + 32) fr = 16384 ∨ windowExact c i fr + windowExact c (i + 32) fr = 16383 := by
  have hnext : winValue c (i + 1) + winValue c (i + 32 + 1) = 16384 := by
    rw [add_right_comm]
    exact h (i + 1)
  have hopposite : (winValue c (i + 32 + 1) - winValue c (i + 32)) * fr.toNat =
      -((winValue c (i + 1) - winValue c i) * fr.toNat) := by
    rw [← neg_mul]
    congr 1
    linarith [h i]
  have hhere := h i
  simp only [windowExact, asr, hopposite]
  omega

theorem window_add_half {c : Config} (h : ∀ i, winValue c i + winValue c (i + 32) = 16384) (t : BitVec 28) :
    (window c t).toInt + (window c (t + BitVec.ofNat 28 (2 ^ 27))).toInt = 16384 ∨
      (window c t).toInt + (window c (t + BitVec.ofNat 28 (2 ^ 27))).toInt = 16383 := by
  obtain ⟨hindex, hfraction⟩ := extractLsb'_add_half t
  rw [window_toInt, window_toInt, hindex, hfraction]
  exact windowExact_add_half h _ _

/-! ROUT as a full next state (R94, R95) -/

/-- What a slot adds to ROUT's sum: an Inactive one nothing. -/
def grainOutput (s : State) (g : Grain) : Word :=
  if g.active then contribution s.cfg g (s.ringWord .inp (grainReadIndex g)) else 0

/-- The reads a slot makes in ROUT. -/
def grainReads (s : State) (g : Grain) : List BusAccess :=
  if g.active then [plannedRead s .inp (grainReadIndex g)] else []

/-- A slot's turn, Active or not, once the bases are checked. -/
theorem addGrain_eq (g : Grain) (sum : Word) {s : State} (h : basesOk s.cfg s.baseIn.toNat s.baseFb.toNat = true) :
    addGrain g sum s = .ok (sum + grainOutput s g, { s with bus := s.bus ++ grainReads s g }) := by
  cases hg : g.active with
  | true =>
    rw [addGrain_active hg sum h, grainOutput, grainReads, if_pos hg, if_pos hg]
    rfl
  | false => simp [addGrain_inactive hg sum s, grainOutput, grainReads, hg]

/-- ROUT once INIT is done and the bases are checked: the first slot's read leaves what the second one sees. -/
theorem exec_rout {s : State} (hd : s.initDone = true) (h : basesOk s.cfg s.baseIn.toNat s.baseFb.toNat = true) :
    exec .rout s = .next (respond false (grainOutput s s.grain0 + grainOutput s s.grain1)
      { s with bus := s.bus ++ grainReads s s.grain0 ++ grainReads s s.grain1 }) := by
  have hsum : reverseOutput s = .ok (respond false (0 + grainOutput s s.grain0 + grainOutput s s.grain1)
      { s with bus := s.bus ++ grainReads s s.grain0 ++ grainReads s s.grain1 }) :=
    except_bind_eq_ok.mpr ⟨_, addGrain_eq s.grain0 0 h,
      except_bind_eq_ok.mpr ⟨_, addGrain_eq s.grain1 _ (by exact h), rfl⟩⟩
  rw [zero_add] at hsum
  exact (whenInitDone_of_initDone hd _).trans (ofExcept_eq_next.mpr hsum)

theorem active_iff {g : Grain} : g.active = true ↔ 0 < g.phase.toInt := decide_eq_true_iff

/-- Settles O52: after INIT the state is the one of `exec_rout`; before it, ROUT is one of O26's commands. -/
theorem routSumsTheActiveGrains : Obligations.RoutSumsTheActiveGrains := by
  refine fun s => ⟨fun hd hbases => ?_, fun hd => commandsBeforeInitFault s .rout hd (by simp)⟩
  rw [exec_rout hd hbases]
  simp only [grainOutput, grainReads, active_iff]
  rfl

/-! The bound of ROUT (R98) -/

/-- A contribution is the sample's share by the window value, floored. -/
theorem contribution_eq (c : Config) (g : Grain) (x : Word) :
    contribution c g x = trunc32 (x.toInt * (window c (windowArg g)).toInt / 16384) := by
  rw [contribution, mulsh, asr, sampleValue, windowQ16, ← mul_assoc]
  congr 1
  exact Int.mul_ediv_mul_of_pos_left (x.toInt * (window c (windowArg g)).toInt) 16384 (b := 4) (by decide)

/-- With window values in 0..1.0 a contribution is no further from 0 than the sample. -/
theorem natAbs_contribution_le {c : Config} (h : ∀ i, 0 ≤ winValue c i ∧ winValue c i ≤ 16384) (g : Grain) (x : Word) :
    (contribution c g x).toInt.natAbs ≤ x.toInt.natAbs := by
  obtain ⟨hlo, hhi⟩ := window_mem_range h (windowArg g)
  have hshare := mul_ediv_between x.toInt (n := 16384) (by decide) hlo hhi
  have hmin : -2 ^ 31 ≤ x.toInt := BitVec.le_toInt x
  have hmax : x.toInt < 2 ^ 31 := BitVec.toInt_lt
  rw [contribution_eq, trunc32, BitVec.toInt_ofInt_eq_self (by decide) (by omega) (by omega)]
  omega

/-- The signed value of a wrapped sum is no further from 0 than the sum. -/
theorem natAbs_toInt_add_le (x y : Word) : (x + y).toInt.natAbs ≤ x.toInt.natAbs + y.toInt.natAbs := by
  rw [BitVec.toInt_add, Int.bmod_def]
  split <;> omega

/-- Settles O57: each slot adds at most the sample it reads, an Inactive one nothing. -/
theorem routStaysBounded : Obligations.RoutStaysBounded := by
  intro s M hd hbases hwin hM
  have hslot (g : Slot) : (grainOutput s (s.grain g)).toInt.natAbs ≤ M := by
    unfold grainOutput
    split
    next hactive => exact (natAbs_contribution_le (fun i => hwin i.toFin) _ _).trans (hM g hactive)
    next => exact Nat.zero_le M
  have hsum := natAbs_toInt_add_le (grainOutput s s.grain0) (grainOutput s s.grain1)
  have h0 : (grainOutput s s.grain0).toInt.natAbs ≤ M := hslot .zero
  have h1 : (grainOutput s s.grain1).toInt.natAbs ≤ M := hslot .one
  exact ⟨_, _, exec_rout hd hbases, rfl, by omega⟩

/-! The flat overlap (R98) -/

/-- Phases THRESH apart, either way, put the window's arguments half a period apart. -/
theorem windowArg_add_half {g g' : Grain}
    (h : g.phase.toInt = g'.phase.toInt + 2 ^ 27 ∨ g'.phase.toInt = g.phase.toInt + 2 ^ 27) :
    windowArg g' = windowArg g + BitVec.ofNat 28 (2 ^ 27) := by
  obtain h | h := h
  · have hperiod : BitVec.ofNat 28 (2 ^ 27) = BitVec.ofInt 28 (2 ^ 27) := by decide
    rw [windowArg, windowArg, h, hperiod, ← BitVec.ofInt_add]
    congr 1
    omega
  · have hperiod : BitVec.ofNat 28 (2 ^ 27) = BitVec.ofInt 28 (-2 ^ 27) := by decide
    rw [windowArg, windowArg, h, hperiod, ← BitVec.ofInt_add]
    congr 1
    omega

/-- Two floored shares of `x` by windows that sum to `W` stay within 2 LSBs below the share by `W`, and so in 32 bits: only
`x = -2^31` could leave them, and its shares are whole. -/
theorem shares_of_sum {x w w' W : Int} (hx : -2 ^ 31 ≤ x ∧ x < 2 ^ 31) (hsum : w + w' = W) (hW : W = 16384 ∨ W = 16383) :
    (-2 ^ 31 ≤ x * w / 16384 + x * w' / 16384 ∧ x * w / 16384 + x * w' / 16384 < 2 ^ 31) ∧
      x * W - 2 * 16384 < (x * w / 16384 + x * w' / 16384) * 16384 ∧
      (x * w / 16384 + x * w' / 16384) * 16384 ≤ x * W := by
  have hparts : x * w + x * w' = x * W := by rw [← mul_add, hsum]
  refine ⟨?_, by omega, by omega⟩
  obtain rfl | hne := eq_or_ne x (-2 ^ 31)
  · omega
  · obtain rfl | rfl := hW <;> omega

/-- Settles O58: the windows of the two slots sum to `W`, so the sum of the two contributions needs no wrap. -/
theorem overlapAddIsFlat : Obligations.OverlapAddIsFlat := by
  intro s x hd hbases hwin hslots hapart
  have houtput (g : Slot) : grainOutput s (s.grain g) =
      trunc32 (x.toInt * (window s.cfg (windowArg (s.grain g))).toInt / 16384) := by
    obtain ⟨hphase, -, hread⟩ := hslots g
    rw [grainOutput, if_pos (active_iff.mpr hphase), hread, contribution_eq]
  have hsum := window_add_half (c := s.cfg) (fun i => hwin i.toFin) (windowArg s.grain0)
  rw [← windowArg_add_half hapart] at hsum
  obtain ⟨hfits, hflat⟩ := shares_of_sum ⟨BitVec.le_toInt x, BitVec.toInt_lt⟩ rfl hsum
  have hvalue : (grainOutput s s.grain0 + grainOutput s s.grain1).toInt =
      x.toInt * (window s.cfg (windowArg s.grain0)).toInt / 16384 +
        x.toInt * (window s.cfg (windowArg s.grain1)).toInt / 16384 := by
    have h0 : grainOutput s s.grain0 = _ := houtput .zero
    have h1 : grainOutput s s.grain1 = _ := houtput .one
    rw [h0, h1, trunc32, trunc32, ← BitVec.ofInt_add]
    exact BitVec.toInt_ofInt_eq_self (by decide) hfits.1 hfits.2
  rw [← hvalue] at hflat
  exact ⟨_, _, _, exec_rout hd hbases, rfl, hsum, hflat⟩

end Sys2Proof.Machine
end

section
/-! PROOF. The window statements (46_window_lut R100-R102): the interpolation on a segment of the table, both ends included, and
from it the symmetry of the window and the extremes of the default one. -/

namespace Sys2Proof.Machine

/-! The interpolation (R100) -/

/-- The argument `i * 2^22 + fr` has table index `i` and fraction `fr`. -/
theorem extractLsb'_segment (i : Fin 64) {fr : Nat} (hfr : fr < 2 ^ 22) :
    (BitVec.ofNat 28 (i * 2 ^ 22 + fr)).extractLsb' 22 6 = BitVec.ofFin i ∧
      ((BitVec.ofNat 28 (i * 2 ^ 22 + fr)).extractLsb' 0 22).toNat = fr := by
  have hi := i.isLt
  refine ⟨BitVec.eq_of_toNat_eq ?_, ?_⟩
  · rw [BitVec.extractLsb'_toNat, BitVec.toNat_ofNat, BitVec.toNat_ofFin, Nat.shiftRight_eq_div_pow]
    omega
  · rw [BitVec.extractLsb'_toNat, BitVec.toNat_ofNat, Nat.shiftRight_zero]
    omega

/-- Settles O53: the index and the fraction of the argument are `i` and `fr`, and `windowExact` is the interpolation. -/
theorem windowInterpolatesAdjacentEntries : Obligations.WindowInterpolatesAdjacentEntries := by
  intro c i fr hfr x y w
  obtain ⟨hindex, hfraction⟩ := extractLsb'_segment i hfr
  have hw : w = windowExact c (BitVec.ofFin i) ((BitVec.ofNat 28 (i * 2 ^ 22 + fr)).extractLsb' 0 22) := by
    rw [← hindex]
    exact window_toInt c _
  refine ⟨?_, hw ▸ windowExact_between c (BitVec.ofFin i) _⟩
  rw [hw, windowExact, hfraction]
  rfl

/-- The interpolation holds at the far end of a segment too, where the window is the next entry. -/
theorem window_segment (c : Config) (i : Fin 64) {fr : Nat} (hfr : fr ≤ 2 ^ 22) :
    (window c (BitVec.ofNat 28 (i * 2 ^ 22 + fr))).toInt =
      (c.win.get i).toInt + ((c.win.get (i + 1)).toInt - (c.win.get i).toInt) * fr / 2 ^ 22 := by
  obtain hlt | rfl := hfr.lt_or_eq
  · exact (windowInterpolatesAdjacentEntries c i fr hlt).1
  · have hnext : BitVec.ofNat 28 (i * 2 ^ 22 + 2 ^ 22) = BitVec.ofNat 28 ((i + 1 : Fin 64) * 2 ^ 22 + 0) := by
      apply BitVec.eq_of_toNat_eq
      rw [BitVec.toNat_ofNat, BitVec.toNat_ofNat, Fin.val_add, Fin.val_one]
      omega
    rw [hnext, (windowInterpolatesAdjacentEntries c (i + 1) 0 (by decide)).1]
    omega

/-- Every argument below ONE lies on a segment. -/
theorem exists_segment {t : Nat} (ht : t < 2 ^ 28) : ∃ (i : Fin 64) (fr : Nat), fr < 2 ^ 22 ∧ t = i * 2 ^ 22 + fr :=
  ⟨⟨t / 2 ^ 22, by omega⟩, t % 2 ^ 22, by omega, by simp only; omega⟩

/-! Opposite entries and symmetric tables (R101) -/

/-- Settles O54, by the sum of any two windows half a period apart. -/
theorem windowHalvesSumToOne : Obligations.WindowHalvesSumToOne := by
  intro c hwin t _
  rw [BitVec.ofNat_add]
  exact window_add_half (fun i => hwin i.toFin) _

/-- Interpolation from the other end gives the same floored value: the two steps differ by a whole number. -/
theorem interpolation_reversed (x y : Int) {fr : Nat} (hfr : fr ≤ 2 ^ 22) :
    x + (y - x) * fr / 2 ^ 22 = y + (x - y) * (2 ^ 22 - fr : Nat) / 2 ^ 22 := by
  have hexpand : (x - y) * (2 ^ 22 - fr : Nat) = (y - x) * fr + (x - y) * 2 ^ 22 := by
    rw [Nat.cast_sub hfr]
    push_cast
    ring
  rw [hexpand, Int.add_mul_ediv_right _ _ (by decide)]
  ring

/-- Settles O55: `ONE - t` lies on the mirrored segment, at the same distance from the same two entries. -/
theorem windowIsSymmetric : Obligations.WindowIsSymmetric := by
  intro c hwin t hpos ht
  obtain ⟨i, fr, hfr, rfl⟩ := exists_segment ht
  have hmirror : 2 ^ 28 - (i * 2 ^ 22 + fr) = i.rev * 2 ^ 22 + (2 ^ 22 - fr) := by
    rw [Fin.val_rev]
    omega
  have hrev : ∀ j : Fin 64, j.rev = -(j + 1) ∧ j.rev + 1 = -j := by decide
  have hnear : c.win.get i.rev = c.win.get (i + 1) := by rw [(hrev i).1, ← hwin]
  have hfar : c.win.get (i.rev + 1) = c.win.get i := by rw [(hrev i).2, ← hwin]
  apply BitVec.eq_of_toInt_eq
  rw [hmirror, window_segment c i hfr.le, window_segment c i.rev (Nat.sub_le _ _), hnear, hfar]
  exact interpolation_reversed _ _ hfr.le

/-! The default table (R101, R102) -/

theorem hannTable_symmetric (i : Fin 64) : hannTable.get i = hannTable.get (-i) := by
  revert i
  decide

theorem hannTable_add_half (i : Fin 64) : (hannTable.get i).toInt + (hannTable.get (i + 32)).toInt = 16384 := by
  revert i
  decide

theorem hannTable_mem_range (i : Fin 64) : 0 ≤ (hannTable.get i).toInt ∧ (hannTable.get i).toInt ≤ 16384 := by
  revert i
  decide

/-- Only entries 0 and 32 of the default table are extreme. -/
theorem hannTable_mem_open_range {i : Fin 64} (h0 : i ≠ 0) (h32 : i ≠ 32) :
    0 < (hannTable.get i).toInt ∧ (hannTable.get i).toInt < 16384 := by
  revert i
  decide

/-- On the rising half the default window is 0 as long as 39 times the fraction of segment 0 is below 1.0, and the last
segment ends at, but does not reach, 16384. -/
theorem hannWindow_rising {c : Config} (hc : c.win = hannTable) {t : Nat} (ht : t < 2 ^ 27) :
    (window c (BitVec.ofNat 28 t)).toInt < 16384 ∧ ((window c (BitVec.ofNat 28 t)).toInt = 0 ↔ t ≤ 107546) := by
  obtain ⟨i, fr, hfr, rfl⟩ := exists_segment (ht.trans (by decide))
  obtain ⟨hw, hlo, hhi⟩ := windowInterpolatesAdjacentEntries c i fr hfr
  rw [hc] at hw hlo hhi
  obtain rfl | rfl | ⟨hne0, hne31⟩ : i = 0 ∨ i = 31 ∨ i ≠ 0 ∧ i ≠ 31 := by tauto
  case inl =>
    have hends : (hannTable.get 0).toInt = 0 ∧ (hannTable.get (0 + 1)).toInt = 39 := by decide
    rw [hends.1, hends.2] at hw
    rw [hw, Fin.val_zero]
    omega
  case inr.inl =>
    have hends : (hannTable.get 31).toInt = 16345 ∧ (hannTable.get (31 + 1)).toInt = 16384 := by decide
    rw [hends.1, hends.2] at hw
    have hi : (31 : Fin 64).val = 31 := rfl
    rw [hw, hi]
    omega
  case inr.inr =>
    have hindex : 0 < i.val ∧ i.val < 31 := by omega
    have hhere := hannTable_mem_open_range (i := i) (by omega) (by omega)
    have hnext := hannTable_mem_open_range (i := i + 1) (by omega) (by omega)
    omega

theorem hannWindow_half {c : Config} (hc : c.win = hannTable) : (window c (BitVec.ofNat 28 (2 ^ 27))).toInt = 16384 := by
  have hw := (windowInterpolatesAdjacentEntries c 32 0 (by decide)).1
  rw [hc] at hw
  exact hw

/-- Settles O56: the rising half by `hannWindow_rising`, the falling one as its mirror image. -/
theorem defaultWindowPeaksAtOneHalf : Obligations.DefaultWindowPeaksAtOneHalf := by
  intro c hc
  have hsymm : ∀ i : Fin 64, c.win.get i = c.win.get (-i) := hc ▸ hannTable_symmetric
  refine ⟨fun i => ⟨hsymm i, hc ▸ hannTable_add_half i⟩, fun t ht => ?_⟩
  have hentries (i : BitVec 6) : 0 ≤ winValue c i ∧ winValue c i ≤ 16384 := by
    rw [winValue, hc]
    exact hannTable_mem_range i.toFin
  obtain ⟨hlo, hhi⟩ := window_mem_range hentries (BitVec.ofNat 28 t)
  refine ⟨hlo, hhi, ?_⟩
  obtain hrise | rfl | hfall := lt_trichotomy t (2 ^ 27)
  · obtain ⟨hpeak, hzero⟩ := hannWindow_rising hc hrise
    omega
  · have hpeak := hannWindow_half hc
    omega
  · obtain ⟨hpeak, hzero⟩ := hannWindow_rising hc (t := 2 ^ 28 - t) (by omega)
    rw [← windowIsSymmetric c hsymm t (by omega) ht] at hpeak hzero
    omega

end Sys2Proof.Machine
end

section
/-! PROOF. The exception statements (60_exceptions): what a fault changes, which cause a command reports, ERR_DIV0, and what
remains between commands and after an abandoned one. -/

namespace Sys2Proof.Machine

/-! What a fault changes (R105, R106) -/

/-- The response's 32 bits hold every cause code. -/
@[simp] theorem toNat_ofNat_causeCode (c : Cause) : (BitVec.ofNat 32 c.code).toNat = c.code := by cases c <;> rfl

theorem causeCode_pos (c : Cause) : 0 < c.code := by cases c <;> decide

/-- Settles O15, by the effect: causes 1 to 4 come from `raiseFault` alone, cause 5 comes after UPDATE's steps, and no
other effect responds with an error. -/
theorem faultsChangeStatusAndResponseOnly : Obligations.FaultsChangeStatusAndResponseOnly := by
  intro i s t d h hresp
  cases exec_effect h with
  | raised c hc =>
    obtain rfl : BitVec.ofNat 32 c.code = d := by simpa using hresp
    rw [toNat_ofNat_causeCode]
    exact ⟨⟨causeCode_pos c, causeCode_le c⟩, fun _ => rfl⟩
  | updatedEmpty =>
    obtain rfl : BitVec.ofNat 32 Cause.div0.code = d := by simpa using hresp
    exact ⟨by decide, fun hle => absurd hle (by decide)⟩
  | answered | bound | reset | pushed | updated => simp at hresp

/-! ERR_DIV0 (R107) -/

/-- UPDATE finds an empty grain where the origin's advanced phase is at or below the threshold and the new EFF is less than
two samples. -/
theorem spawnsEmpty_advance_smooth_iff {s : State} (a : Word) :
    spawnsEmpty (grainAdvance (smooth a s)) = true ↔
      ((s.grain s.origin).phase - (s.grain s.origin).step).toInt ≤ (s.cfg.thresh : Int) ∧
        (newEff s.cfg (newTarget s.cfg s.target a) s.eff).toNat / 2 ^ 9 = 0 := by
  rw [spawnsEmpty, Bool.and_eq_true, mustSpawn_advance_smooth_iff, decide_eq_true_iff]
  rfl

/-- Settles O38: the spawn of R93 with length 0, whose step is ONE, and then cause 5. -/
theorem emptyGrainReportsDivZero : Obligations.EmptyGrainReportsDivZero := by
  intro s a hd hreached eff hlen
  have hempty : spawnsEmpty (grainAdvance (smooth a s)) = true := (spawnsEmpty_advance_smooth_iff a).mpr ⟨hreached, hlen⟩
  have hlength : grainLen (grainAdvance (smooth a s)).eff = 0 := hlen
  have hexec : exec (.update a) s = .next (raiseFault .div0 (updateEngine a s)) :=
    (execUpdate_of_initDone hd a).trans (if_pos hempty)
  rw [hexec, updateEngine_of_reached hreached, spawn, spawnedGrain, hlength, grainAdvance_origin, smooth_origin]
  generalize s.origin = o
  cases o <;> rfl

/-! Which cause a command reports (R108) -/

/-- From `s`, `t` reports the cause `code`, or responds without error where `code` is 0. -/
def Reports (code : Nat) (s t : State) : Prop :=
  ∃ r : Response, t.responses = s.responses ++ [r] ∧ (r.err = true ↔ code ≠ 0) ∧ (code ≠ 0 → r.data.toNat = code)

theorem reports_respond (d : Word) {s u : State} (h : u.responses = s.responses) : Reports 0 s (respond false d u) :=
  ⟨⟨false, d⟩, by simp [h], by simp, by simp⟩

theorem reports_raiseFault (c : Cause) {s u : State} (h : u.responses = s.responses) :
    Reports c.code s (raiseFault c u) :=
  ⟨⟨true, BitVec.ofNat 32 c.code⟩, by simp [h], by simp [(causeCode_pos c).ne'], fun _ => toNat_ofNat_causeCode c⟩

/-- Behind the dispatch's check cause 1 is reported before INIT, and afterwards what the command itself reports. -/
theorem reports_whenInitDone {code : Nat} {s t : State} {r : Result} (h : whenInitDone s r = .next t)
    (hr : r = .next t → Reports code s t) : Reports (if s.initDone = false then 1 else code) s t := by
  obtain ⟨hd, rfl⟩ | ⟨hd, h⟩ := whenInitDone_cases h
  · rw [if_pos hd]
    exact reports_raiseFault .notInit rfl
  · rw [if_neg (by simp [hd])]
    exact hr h

/-- INIT reports cause 2 before it looks at its operands. -/
theorem reports_execInit {a b : Word} {s t : State} (h : execInit a b s = .next t) :
    Reports (if s.initDone = true then 2 else if basesOk s.cfg a.toNat b.toNat = false then 3 else 0) s t := by
  obtain ⟨hd, rfl⟩ | ⟨hd, hbases, rfl⟩ | ⟨hd, hbases, rfl⟩ := execInit_cases h
  · rw [if_pos hd]
    exact reports_raiseFault .reinit rfl
  · rw [if_neg (by simp [hd]), if_pos hbases]
    exact reports_raiseFault .badBase rfl
  · rw [if_neg (by simp [hd]), if_neg (by simp [hbases])]
    exact reports_respond 0 rfl

theorem reports_execUpdate {a : Word} {s t : State} (h : execUpdate a s = .next t) :
    Reports (if s.initDone = false then 1 else if spawnsEmpty (grainAdvance (smooth a s)) = true then 5 else 0) s t := by
  refine reports_whenInitDone h fun h => ?_
  split at h
  next hempty =>
    cases h
    rw [if_pos hempty]
    exact reports_raiseFault .div0 (updateEngine_responses a s)
  next hempty =>
    cases h
    rw [if_neg hempty]
    exact reports_respond 0 (updateEngine_responses a s)

/-- Settles O22, by the command: R108's order is the order in which its meaning makes the checks. -/
theorem oneCauseByPriority : Obligations.OneCauseByPriority := by
  intro i s t h
  cases i with
  | nop =>
    cases h
    exact reports_respond 0 rfl
  | init a b =>
    have hreports := reports_execInit h
    simp only [basesOk_eq_false_iff] at hreports
    exact hreports
  | reset =>
    refine reports_whenInitDone h fun h => ?_
    cases h
    exact reports_respond 0 rfl
  | push a b =>
    refine reports_whenInitDone h fun h => ?_
    obtain ⟨_, _, -, rfl⟩ := pushBoth_ok (ofExcept_eq_next.mp h)
    exact reports_respond 0 rfl
  | update a =>
    have hreports := reports_execUpdate h
    simp only [spawnsEmpty_advance_smooth_iff] at hreports
    exact hreports
  | dout =>
    refine reports_whenInitDone h fun h => ?_
    obtain ⟨y, _, _, rfl⟩ := delayOutput_ok (ofExcept_eq_next.mp h)
    exact reports_respond y rfl
  | rout =>
    refine reports_whenInitDone h fun h => ?_
    obtain ⟨y, _, rfl⟩ := reverseOutput_ok (ofExcept_eq_next.mp h)
    exact reports_respond y rfl
  | reserved7 =>
    cases h
    exact reports_raiseFault .illegalOp rfl

/-! Between commands (R118) -/

/-- Settles O8: the idle core's step, and the host's move that changes nothing. -/
theorem coreHoldsItsStateBetweenCommands : Obligations.CoreHoldsItsStateBetweenCommands :=
  fun _ hc => ⟨step_of_no_move hc, fun _ hh => step_of_move hc hh⟩

/-! An abandoned output command (R117, 70_reset_and_hazards R119) -/

theorem step_powerOnReset {s : State} {rest : List HostMove} (hc : s.cfg.Accepted) (h : s.host = .powerOnReset :: rest) :
    step s = .next (powerOnReset { s with host := rest }) := step_of_move hc h

theorem plannedAccesses_dout {s : State} (h : s.initDone = true) :
    plannedAccesses .dout s = (List.range s.cfg.taps).map fun (j : Nat) => plannedRead s .fb (firBase s + j) := if_pos h

theorem plannedCoefReads_dout {s : State} (h : s.initDone = true) :
    plannedCoefReads .dout s =
      (List.range s.cfg.taps).map fun (j : Nat) => ⟨firSelector s.cfg s.eff, BitVec.ofNat 6 j⟩ := if_pos h

/-- ROUT reads no coefficient (10_state R28). -/
theorem plannedCoefReads_rout (s : State) : plannedCoefReads .rout s = [] := ite_self []

/-- All that DOUT and ROUT plan is reads of the words the memory holds, at addresses the core can read (20_memory R39). -/
theorem plannedAccesses_output {i : Instr} (hi : i = .dout ∨ i = .rout) {s : State} (hd : s.initDone = true)
    (h : basesOk s.cfg s.baseIn.toNat s.baseFb.toNat = true) :
    ∀ x ∈ plannedAccesses i s, ∃ addr, accessError addr = none ∧ x = .read addr (s.mem.word addr) := by
  intro x hx
  obtain rfl | rfl := hi
  · rw [plannedAccesses_dout hd] at hx
    obtain ⟨j, -, rfl⟩ := List.mem_map.mp hx
    exact plannedRead_accessible h .fb _
  · rw [plannedAccesses, if_pos hd] at hx
    obtain ⟨g, -, rfl⟩ := List.mem_map.mp hx
    exact plannedRead_accessible h .inp _

/-- A begun command that only reads grows the two traces and sets BUSY: the read in flight tears no word. -/
theorem beginCommand_of_reads {i : Instr} {s : State} (acks coefs : Nat) (torn : Option Word)
    (h : ∀ x ∈ plannedAccesses i s, ∃ addr, accessError addr = none ∧ x = .read addr (s.mem.word addr)) :
    beginCommand i acks coefs torn s = .next
      { s with
        busy := true
        bus := s.bus ++ (plannedAccesses i s).take acks
        coefReads := s.coefReads ++ (plannedCoefReads i s).take coefs } := by
  have hdone := completeAccesses_reads fun x hx => h x (List.mem_of_mem_take (i := acks) hx)
  have hflight (u : State) : tearWord ((plannedAccesses i s).drop acks) torn u = .ok u := by
    refine tearWord_reads (fun x hx => ?_) torn
    obtain ⟨addr, ha, rfl⟩ := h x (List.mem_of_mem_drop hx)
    exact ⟨addr, _, ha, rfl⟩
  exact ofExcept_eq_next.mpr (except_bind_eq_ok.mpr ⟨_, hdone, except_bind_eq_ok.mpr ⟨_, hflight _, rfl⟩⟩)

/-- Settles O60: the begun command has made the first of its planned reads, and power-on reset keeps the traces. -/
theorem abandonedOutputLeavesItsReadsOnThePort : Obligations.AbandonedOutputLeavesItsReadsOnThePort := by
  intro s i acks coefs torn rest hc hbusy hd hbases hi hhost tapReads grainReads
  have hbegun : step s = beginCommand i acks coefs torn { s with host := .powerOnReset :: rest } := by
    rw [step_of_move hc hhost, hostMove_beginBeat (by exact hbusy), encode, decode_encodeWith]
  have hreads := plannedAccesses_output hi (s := { s with host := .powerOnReset :: rest }) hd hbases
  refine ⟨_, _, hbegun.trans (beginCommand_of_reads acks coefs torn hreads), rfl, step_powerOnReset (by exact hc) rfl,
    rfl, rfl, rfl, rfl, ?_, ?_⟩
  · rintro rfl
    rw [plannedAccesses_dout (by exact hd), plannedCoefReads_dout (by exact hd)]
    exact ⟨rfl, rfl⟩
  · rintro rfl
    rw [plannedAccesses_rout (by exact hd), plannedCoefReads_rout, List.take_nil, List.append_nil]
    simp only [active_iff]
    exact ⟨rfl, rfl⟩

end Sys2Proof.Machine
end

section
/-! PROOF. The canonical form of the memory (log entry 3): a memory in it lists exactly the bytes that do not read as an
unlisted one, and no step leaves it. -/

namespace Sys2Proof.Machine

/-! What a memory in canonical form lists -/

/-- The tail of a memory in canonical form is in it too and starts above the head's address; the head's byte is listed
with cause. -/
theorem canonical_cons {k : Nat} {w : Byte} {rest : Memory} (h : Memory.Canonical ((k, w) :: rest)) :
    Memory.Canonical rest ∧ (∀ cell ∈ rest, k < cell.1) ∧ w ≠ unlistedByte := by
  obtain ⟨hrising, hcells⟩ := h
  obtain ⟨hfirst, hrest⟩ := List.pairwise_cons.mp hrising
  obtain ⟨⟨-, hw⟩, htail⟩ := List.forall_mem_cons.mp hcells
  exact ⟨⟨hrest, htail⟩, hfirst, hw⟩

/-- A memory in canonical form lists a byte exactly where it reads as that byte and not as an unlisted one. -/
theorem mem_iff_byte_eq {m : Memory} (hm : m.Canonical) (x : Nat) (v : Byte) :
    (x, v) ∈ m ↔ m.byte x = v ∧ v ≠ unlistedByte := by
  induction m with
  | nil => simp only [Memory.byte, List.not_mem_nil, false_iff, not_and, not_not, eq_comm, imp_self]
  | cons cell rest ih =>
    obtain ⟨k, w⟩ := cell
    obtain ⟨hrest, hfirst, hw⟩ := canonical_cons hm
    by_cases hk : k = x
    · subst hk
      have hnot : (k, v) ∉ rest := fun hv => (hfirst _ hv).false
      simp only [Memory.byte, if_pos, List.mem_cons, Prod.mk.injEq, true_and, hnot, or_false]
      exact ⟨fun hv => ⟨hv.symm, hv ▸ hw⟩, fun ⟨hv, _⟩ => hv.symm⟩
    · simpa [Memory.byte, hk, Ne.symm hk] using ih hrest

/-- Settles O11: the two memories list the same bytes, both in rising order. -/
theorem canonicalMemoriesAreEqualWhenTheyReadAlike : Obligations.CanonicalMemoriesAreEqualWhenTheyReadAlike := by
  intro m n hm hn hread
  have hirrefl : Std.Irrefl fun x y : Host.Cell => x.1 < y.1 := ⟨fun _ => lt_irrefl _⟩
  have hantisymm : Std.Antisymm fun x y : Host.Cell => x.1 < y.1 := ⟨fun _ _ h h' => absurd h' h.not_gt⟩
  refine hm.1.eq_of_mem_iff hn.1 fun ⟨x, v⟩ => ?_
  rw [mem_iff_byte_eq hm, mem_iff_byte_eq hn, hread]

/-! What keeps the form -/

/-- Every effect of a command keeps the memory canonical: PUSH's two words lie inside the address space, and no other
command writes. -/
theorem execEffect_canonical {i : Instr} {s t : State} (he : ExecEffect s i t) (h : s.mem.Canonical) :
    t.mem.Canonical := by
  cases he with
  | raised | answered | bound | reset => exact h
  | pushed mem bus hmem => exact hmem h
  | updated | updatedEmpty => simpa using h

/-- Settles O12, by the step's effect: a command's, power-on reset, which leaves the memory, or a host move's. -/
theorem everyStepKeepsTheMemoryCanonical : Obligations.EveryStepKeepsTheMemoryCanonical := by
  intro s t h hstep
  cases step_effect hstep with
  | command rest he => exact execEffect_canonical he h
  | poweredOn => exact h
  | silent host busy mem bus coefReads hmem => exact hmem h

end Sys2Proof.Machine
end

section
/-! PROOF. The statements of 70_reset_and_hazards: power-on reset, a PUSH it abandons, the host's accesses to memory, and
the order of PUSH and UPDATE. -/

namespace Sys2Proof.Machine

/-! Power-on reset (R119) -/

/-- Settles O17: `powerOnReset` is the assignments of R119. -/
theorem powerOnResetSetsEveryRegister : Obligations.PowerOnResetSetsEveryRegister := by
  intro s rest hc h
  rw [ofNat_shiftLeft_eight]
  exact step_powerOnReset hc h

/-- Settles O40: the reset state is the launch of REF with nothing listed in memory. -/
theorem launchMeetsTheInvariant : Obligations.LaunchMeetsTheInvariant :=
  ⟨fun _ _ host hc hmem => inv_launch hc hmem host, inv_launch (by decide) canonical_reset []⟩

/-! The host's accesses to memory (R126 duties 1 and 2) -/

theorem hostWrite_of_duty_broken {addr : Word} {s : State} (h : s.busy = true ∨ inRegions s addr.toNat = true) (v : Byte) :
    hostWrite addr v s = .fault .hostDutyBroken := if_pos (Bool.or_eq_true_iff.mpr h)

theorem hostWrite_of_allowed {addr : Word} {s : State} (hbusy : s.busy = false) (h : inRegions s addr.toNat = false)
    (v : Byte) : hostWrite addr v s = .next { s with mem := s.mem.setByte addr.toNat v } := by
  simp [hostWrite, hbusy, h]

theorem hostRead_of_busy {s : State} (h : s.busy = true) (addr : Word) : hostRead addr s = .fault .hostDutyBroken :=
  if_pos h

theorem hostRead_of_not_busy {s : State} (h : s.busy = false) (addr : Word) : hostRead addr s = .next s := by
  simp [hostRead, h]

/-- Settles O19: the step is the host's access, which a command in progress or, for a write, a region bound by INIT
forbids. -/
theorem hostAccessesMemoryOnlyWithinItsDuties : Obligations.HostAccessesMemoryOnlyWithinItsDuties := by
  intro s addr v rest hc inRegion
  have hregions : inRegions { s with host := rest } addr.toNat = true ↔ s.initDone = true ∧ inRegion := inRegions_iff
  refine ⟨fun hhost => ⟨fun hbroken => ?_, fun hbusy hallowed hmem => ?_⟩,
    fun hhost => ⟨fun hbusy => ?_, fun hbusy => ?_⟩⟩
  · exact (step_of_move hc hhost).trans (hostWrite_of_duty_broken (hbroken.imp_right hregions.mpr) v)
  · have hfree : inRegions { s with host := rest } addr.toNat = false := by
      rw [← Bool.not_eq_true, hregions, not_and_or, Bool.not_eq_true]
      exact hallowed
    exact ⟨s.mem.setByte addr.toNat v,
      (step_of_move hc hhost).trans (hostWrite_of_allowed (s := { s with host := rest }) hbusy hfree v),
      byte_setByte hmem.1 addr.toNat v⟩
  · exact (step_of_move hc hhost).trans (hostRead_of_busy (s := { s with host := rest }) hbusy addr)
  · exact (step_of_move hc hhost).trans (hostRead_of_not_busy (s := { s with host := rest }) hbusy addr)

/-! A write that may not have happened (93_implementation_defined I15) -/

/-- The memory after a word write that left `v`, or that did not happen. -/
def Memory.putWord (m : Memory) (addr : Nat) (v : Option Word) : Memory := v.elim m (m.setWord addr)

section
variable {m : Memory} (hm : m.Canonical) (addr : Nat) (v : Option Word)
include hm

theorem word_putWord : (m.putWord addr v).word addr = v.getD (m.word addr) := by
  cases v with
  | none => rfl
  | some v => exact word_setWord hm addr v

theorem word_putWord_disjoint {x : Nat} (hx : x + 4 ≤ addr ∨ addr + 4 ≤ x) : (m.putWord addr v).word x = m.word x := by
  cases v with
  | none => rfl
  | some v => exact word_setWord_disjoint hm v hx

theorem byte_putWord_outside {x : Nat} (hx : x < addr ∨ addr + 4 ≤ x) : (m.putWord addr v).byte x = m.byte x := by
  cases v with
  | none => rfl
  | some v => exact byte_setWord_outside hm v hx

end

/-- A write in flight leaves its word as I15 allows. -/
theorem tearWord_write {addr : Nat} (ha : accessError addr = none) (w : Word) (xs : List BusAccess) (torn : Option Word)
    (s : State) : tearWord (.write addr w :: xs) torn s = .ok { s with mem := s.mem.putWord addr torn } := by
  cases torn <;> simp [tearWord, ha, Memory.putWord]

/-- A write the core can make completes, and the accesses after it follow (20_memory R35). -/
theorem completeAccesses_write {addr : Nat} (ha : accessError addr = none) (v : Word) (xs : List BusAccess) (s : State) :
    completeAccesses (.write addr v :: xs) s =
      completeAccesses xs { s with mem := s.mem.setWord addr v, bus := s.bus ++ [.write addr v] } := by
  rw [completeAccesses, completeAccess, memWrite_of_accessible ha]
  rfl

/-- A begun command, from what its acknowledged accesses and the one in flight leave. -/
theorem beginCommand_eq {i : Instr} {acks : Nat} (coefs : Nat) {torn : Option Word} {s u w : State}
    (hdone : completeAccesses ((plannedAccesses i s).take acks) s = .ok u)
    (hflight : tearWord ((plannedAccesses i s).drop acks) torn u = .ok w) :
    beginCommand i acks coefs torn s = .next
      { w with busy := true, coefReads := w.coefReads ++ (plannedCoefReads i s).take coefs } :=
  ofExcept_eq_next.mpr (except_bind_eq_ok.mpr ⟨u, hdone, except_bind_eq_ok.mpr ⟨w, hflight, rfl⟩⟩)

/-! A PUSH that is begun and does not complete (R119) -/

/-- What the IN write and the FB write of a PUSH leave once `acks` writes are acknowledged: the next one is in flight, and
one after it has not begun. -/
def begunWords (a b : Word) (torn : Option Word) : Nat → Option Word × Option Word
  | 0 => (torn, none)
  | 1 => (some a, torn)
  | _ => (some a, some b)

theorem begunWords_fst_of_acked (a b : Word) (torn : Option Word) {acks : Nat} (h : 1 ≤ acks) :
    (begunWords a b torn acks).1 = some a :=
  match acks, h with
  | 1, _ | _ + 2, _ => rfl

theorem begunWords_snd_of_acked (a b : Word) (torn : Option Word) {acks : Nat} (h : 2 ≤ acks) :
    (begunWords a b torn acks).2 = some b :=
  match acks, h with
  | _ + 2, _ => rfl

/-- The memory a PUSH begun at `s` leaves. -/
def begunPushMem (a b : Word) (acks : Nat) (torn : Option Word) (s : State) : Memory :=
  (s.mem.putWord (ringAddr s .inp ((s.wpIn : Int) - 1)) (begunWords a b torn acks).1).putWord
    (ringAddr s .fb ((s.wpFb : Int) - 1)) (begunWords a b torn acks).2

/-- The two writes of a PUSH, in the order of 20_memory R39. -/
def pushWrites (a b : Word) (s : State) : List BusAccess :=
  [.write (ringAddr s .inp ((s.wpIn : Int) - 1)) a, .write (ringAddr s .fb ((s.wpFb : Int) - 1)) b]

theorem plannedAccesses_push {s : State} (h : s.initDone = true) (a b : Word) :
    plannedAccesses (.push a b) s = pushWrites a b s := by
  rw [plannedAccesses, if_pos h, ringAddr_pushedWp, ringAddr_pushedWp]
  rfl

/-- PUSH reads no coefficient (10_state R28). -/
theorem plannedCoefReads_push (a b : Word) (s : State) : plannedCoefReads (.push a b) s = [] := ite_self []

/-- A PUSH begun with its rings ready: the acknowledged writes are on the trace, and BUSY is 1. -/
theorem beginCommand_push {s : State} (h : s.RingsReady) (a b : Word) (acks coefs : Nat) (torn : Option Word) :
    beginCommand (.push a b) acks coefs torn s = .next
      { s with
        busy := true
        mem := begunPushMem a b acks torn s
        bus := s.bus ++ (pushWrites a b s).take acks } := by
  have hin := accessError_ringAddr h.bases .inp ((s.wpIn : Int) - 1)
  have hfb := accessError_ringAddr h.bases .fb ((s.wpFb : Int) - 1)
  have hbegun {u w : State} (hdone : completeAccesses ((plannedAccesses (.push a b) s).take acks) s = .ok u)
      (hflight : tearWord ((plannedAccesses (.push a b) s).drop acks) torn u = .ok w) :
      beginCommand (.push a b) acks coefs torn s = .next { w with busy := true } := by
    rw [beginCommand_eq coefs hdone hflight, plannedCoefReads_push, List.take_nil, List.append_nil]
  rw [plannedAccesses_push h.initDone] at hbegun
  match acks with
  | 0 =>
    rw [List.take_zero, List.append_nil]
    exact hbegun rfl (tearWord_write hin a _ torn s)
  | 1 =>
    exact hbegun (completeAccesses_write hin a [] s) (tearWord_write hfb b [] torn _)
  | n + 2 =>
    have hall : (pushWrites a b s).length ≤ n + 2 := Nat.le_add_left 2 n
    have hdone := (completeAccesses_write hin a [.write _ b] s).trans (completeAccesses_write hfb b [] _)
    rw [List.append_assoc] at hdone
    rw [List.take_of_length_le hall, List.drop_eq_nil_of_le hall] at hbegun
    rw [List.take_of_length_le hall]
    exact hbegun hdone rfl

section
variable {s : State} (h : s.RingsReady) (a b : Word) (acks : Nat) (torn : Option Word)
include h

theorem canonical_putWord_ringAddr {m : Memory} (hm : m.Canonical) (r : Ring) (k : Int) (v : Option Word) :
    (m.putWord (ringAddr s r k) v).Canonical := by
  cases v with
  | none => exact hm
  | some v => exact canonical_setWord_ringAddr h hm r k v

/-- The FB write, which comes later, does not reach the word of the IN write. -/
theorem begunPushMem_wordIn : (begunPushMem a b acks torn s).word (ringAddr s .inp ((s.wpIn : Int) - 1)) =
    (begunWords a b torn acks).1.getD (s.mem.word (ringAddr s .inp ((s.wpIn : Int) - 1))) := by
  rw [begunPushMem, word_putWord_disjoint (canonical_putWord_ringAddr h h.canonical _ _ _) _ _
    (ringAddr_disjoint h.bases _ _), word_putWord h.canonical]

theorem begunPushMem_wordFb : (begunPushMem a b acks torn s).word (ringAddr s .fb ((s.wpFb : Int) - 1)) =
    (begunWords a b torn acks).2.getD (s.mem.word (ringAddr s .fb ((s.wpFb : Int) - 1))) := by
  rw [begunPushMem, word_putWord (canonical_putWord_ringAddr h h.canonical _ _ _),
    word_putWord_disjoint h.canonical _ _ (ringAddr_disjoint h.bases _ _).symm]

theorem begunPushMem_byte_outside {x : Nat}
    (hin : x < ringAddr s .inp ((s.wpIn : Int) - 1) ∨ ringAddr s .inp ((s.wpIn : Int) - 1) + 4 ≤ x)
    (hfb : x < ringAddr s .fb ((s.wpFb : Int) - 1) ∨ ringAddr s .fb ((s.wpFb : Int) - 1) + 4 ≤ x) :
    (begunPushMem a b acks torn s).byte x = s.mem.byte x := by
  rw [begunPushMem, byte_putWord_outside (canonical_putWord_ringAddr h h.canonical _ _ _) _ _ hfb,
    byte_putWord_outside h.canonical _ _ hin]

end

/-- Settles O18: power-on reset keeps the memory and the trace that the begun PUSH left. -/
theorem abandonedPushWritesOnlyItsWords : Obligations.AbandonedPushWritesOnlyItsWords := by
  intro s a b acks coefs torn rest hc hmem hbusy hd hbases hhost wIn wFb
  have hready : State.RingsReady { s with host := .powerOnReset :: rest } := ⟨hd, hbases, hmem⟩
  have hbegun : step s = beginCommand (.push a b) acks coefs torn { s with host := .powerOnReset :: rest } := by
    rw [step_of_move hc hhost, hostMove_beginBeat (by exact hbusy), encode, decode_encodeWith]
  have hwordIn := begunPushMem_wordIn hready a b acks torn
  have hwordFb := begunPushMem_wordFb hready a b acks torn
  refine ⟨_, _, hbegun.trans (beginCommand_push hready a b acks coefs torn), rfl, step_powerOnReset (by exact hc) rfl,
    rfl, rfl, rfl, rfl, fun hacks => hwordIn.trans ?_, fun hacks => hwordFb.trans ?_, ?_, ?_,
    fun _ => begunPushMem_byte_outside hready a b acks torn⟩
  · rw [begunWords_fst_of_acked a b torn hacks, Option.getD_some]
  · rw [begunWords_snd_of_acked a b torn hacks, Option.getD_some]
  · rintro rfl
    exact ⟨hwordIn, hwordFb⟩
  · rintro rfl
    exact hwordFb

/-! The order of PUSH and UPDATE (R123) -/

/-- The state after UPDATE and then PUSH. -/
def tickedLate (a b r : Word) (s : State) : State := pushed a b (respond false 0 (updateEngine r s))

/-- UPDATE and then PUSH from a state of the invariant answers `tickedLate`. -/
theorem execAll_lateTick {s : State} (h : s.Inv) (hd : s.initDone = true) (a b r : Word) :
    execAll [.update r, .push a b] s = .next (tickedLate a b r s) := by
  have hready : (respond false 0 (updateEngine r s)).RingsReady :=
    ringsReady_of_inv (s := respond false 0 (updateEngine r s)) (inv_updateEngine r h) (by simpa using hd)
  simp only [execAll, exec_update_eq h hd, exec_push hready, tickedLate]

/-- A spawn and a push commute but for the spawned slot's READ_START, which is the pointer at the spawn (R93). -/
theorem pushed_spawn (a b : Word) (s : State) :
    pushed a b (spawn s) = (spawn (pushed a b s)).setGrain (spawn (pushed a b s)).origin
      { (spawn (pushed a b s)).grain (spawn (pushed a b s)).origin with readStart := s.wpIn } := by
  have horigin : (pushed a b s).origin = s.origin := rfl
  rw [spawn_origin, spawn_grain_origin, spawn, spawn, horigin]
  generalize s.origin = o
  cases o <;> rfl

theorem respond_setGrain (e : Bool) (d : Word) (s : State) (g : Slot) (x : Grain) :
    respond e d (s.setGrain g x) = (respond e d s).setGrain g x := by cases g <;> rfl

/-- Without a spawn the two orders lead to one state. -/
theorem tickedLate_of_above {s : State} {r : Word} (a b : Word)
    (h : (s.cfg.thresh : Int) < ((s.grain s.origin).phase - (s.grain s.origin).step).toInt) :
    tickedLate a b r s = ticked a b r s := by
  rw [tickedLate, ticked, updateEngine_of_above h, updateEngine_of_above (s := pushed a b s) (by rwa [pushed_grain])]
  rfl

/-- With a spawn the second order differs from the first in the spawned slot's READ_START. -/
theorem tickedLate_of_reached {s : State} {r : Word} (a b : Word)
    (h : ((s.grain s.origin).phase - (s.grain s.origin).step).toInt ≤ (s.cfg.thresh : Int)) :
    tickedLate a b r s = (ticked a b r s).setGrain (ticked a b r s).origin
      { (ticked a b r s).grain (ticked a b r s).origin with readStart := s.wpIn } := by
  have hlate : tickedLate a b r s = respond false 0 (pushed a b (spawn (grainAdvance (smooth r s)))) := by
    rw [tickedLate, updateEngine_of_reached h]
    rfl
  have htick : ticked a b r s = respond false 0 (spawn (pushed a b (grainAdvance (smooth r s)))) := by
    rw [ticked, updateEngine_of_reached (s := pushed a b s) (by rwa [pushed_grain])]
    rfl
  rw [hlate, htick, pushed_spawn, respond_setGrain, respond_grain]
  rfl

/-- A tick changes the origin exactly if it spawns, and the push before it has no part in that. -/
theorem ticked_origin (a b r : Word) (s : State) :
    (ticked a b r s).origin =
      if ((s.grain s.origin).phase - (s.grain s.origin).step).toInt ≤ (s.cfg.thresh : Int) then s.origin.other
      else s.origin := by
  have h := updateEngine_origin r (pushed a b s)
  rwa [pushed_grain] at h

/-- Settles O29: a tick that keeps the origin has spawned nothing, and one that changes it has spawned the new origin. -/
theorem pushAndUpdateOrderMattersOnlyToReadStart : Obligations.PushAndUpdateOrderMattersOnlyToReadStart := by
  intro s a b r h hd
  refine ⟨ticked a b r s, tickedLate a b r s, execAll_tick h hd a b r, execAll_lateTick h hd a b r, ?_⟩
  have horigin := ticked_origin a b r s
  obtain hreached | habove := le_or_gt ((s.grain s.origin).phase - (s.grain s.origin).step).toInt (s.cfg.thresh : Int)
  · rw [if_pos hreached] at horigin
    have hne : (ticked a b r s).origin ≠ s.origin := horigin ▸ slot_other_ne s.origin
    have hread : ((ticked a b r s).grain (ticked a b r s).origin).readStart = (ticked a b r s).wpIn :=
      (ticked_grain_spawned hne).2.trans (ticked_wpIn a b r s).symm
    rw [tickedLate_of_reached a b hreached, setGrain_origin, setGrain_grain_same]
    exact ⟨rfl, fun heq => absurd heq hne, fun _ => ⟨hread, rfl, rfl⟩⟩
  · rw [if_neg habove.not_ge] at horigin
    rw [tickedLate_of_above a b habove]
    exact ⟨rfl, fun _ => rfl, fun hne => absurd horigin hne⟩

end Sys2Proof.Machine
end
